-- ==== Sys2Proof/Word.lean ====
section
/-!
DEFINITION. The word types of the machine (00_scope.md R7 to R12, 20_memory.md R40): bit strings of a fixed width, arithmetic modulo 2^32.
-/
namespace Sys2Proof

/-- A byte, the unit of an address (R40). -/
abbrev Byte := BitVec 8

/-- `bits(32)`: an address, a general-purpose register, an `S` register (R20, R26, R40). -/
abbrev Word := BitVec 32

/-- `bits(64)`: a `D` register (R25). -/
abbrev DWord := BitVec 64

end Sys2Proof
end

