-- ==== Sys2Proof/Config.lean ====
section
/-!
DEFINITION. What an implementation fixes and what the spec leaves open: the parameters of 00_scope.md R6 as plain data
(`Params`, held in `State.params`, so that a statement about every state is a statement about every setting; log 2), and
the free values (log 1).
-/
namespace Sys2Proof

/-- The kinds of Data Abort that `MemAdmit` may answer (20_memory.md R48); no rule distinguishes them. -/
inductive MemoryAbort where
  | translation
  | accessFlag
  | domain
  | permission
  | external
  | other
  deriving DecidableEq, Repr

/-- The Security state (R32). -/
inductive Security where
  | secure
  | nonSecure
  deriving DecidableEq, Repr

/-- The PE mode (R32; the names are those of 60_exceptions.md R130). -/
inductive Mode where
  | user
  | fiq
  | irq
  | supervisor
  | monitor
  | abort
  | hyp
  | undefined
  | system
  deriving DecidableEq, Repr

/-- The three answers of `MemAdmit` (R48). -/
inductive Admit where
  /-- The four bytes are ordinary memory and are read. -/
  | ok
  /-- The PE takes a synchronous Data Abort of this kind. -/
  | abort (kind : MemoryAbort)
  /-- The launch memory does not cover the address. -/
  | outside
  deriving DecidableEq, Repr, Inhabited

/-- A stretch of `size` bytes from `base` and what `MemAdmit` answers for a word that touches it, in every mode and Security
state or in the one named. -/
structure Region where
  base     : Nat
  size     : Nat
  answer   : Admit
  mode     : Option Mode := none
  security : Option Security := none
  deriving DecidableEq, Repr

/-- The open parameter `MemAdmit` (R6, R48), a function of the state and the address. -/
inductive MemAdmission where
  /-- A written-out function: the first region of the list that applies answers; where none applies, `ok` (log 31). -/
  | regions (map : List Region)
  /-- Any function of the state and the address: the free function `Config.freeAdmit` (log 31). -/
  | anyFunction
  deriving DecidableEq, Repr

/-- The answers of the access check `CheckVFPEnabled(TRUE)` (60_exceptions.md R121). -/
inductive FpAccess where
  | enabled
  | undefined
  | hypTrap
  deriving DecidableEq, Repr

/-- The open parameter `FPAccess` (R6, R121): an answer that is constant along a run, or the algorithm of R122 over the
control registers. -/
inductive FpCheck where
  | constant (answer : FpAccess)
  | registers
  deriving DecidableEq, Repr

/-- What the reserved value '10' of CPACR.cp10 does in R122: refuse (the spec's treatment), or one of the two readings of
"CONSTRAINED UNPREDICTABLE whether access is disabled". -/
inductive ReservedCp10 where
  | refuse
  | disabled
  | allowed
  deriving DecidableEq, Repr

/-- `CU_REGS0` (R6, 40_vldm.md R104). -/
inductive CuRegs0 where
  | undefined
  | nop
  | noRegs
  | refuse
  | anyListed
  deriving DecidableEq, Repr

/-- `CU_RANGE` (R6, 40_vldm.md R105). -/
inductive CuRange where
  | undefined
  | nop
  | unknownRegs
  | refuse
  | anyListed
  deriving DecidableEq, Repr

/-- `ODD_IMM8` (R6, 40_vldm.md R108). -/
inductive OddImm8 where
  | refuse
  | asSourcePseudocode
  deriving DecidableEq, Repr

/-- The parameters of R6 that have more than one value. No step changes them. -/
structure Params where
  /-- `FPAccess` (R121). -/
  fpCheck      : FpCheck
  /-- EL2 is implemented (R122). -/
  el2          : Bool
  /-- EL3 is implemented and uses AArch32 (R122). -/
  el3AArch32   : Bool
  /-- Treatment of CPACR.cp10 = '10' (R122). -/
  cp10Reserved : ReservedCp10
  /-- `MemAdmit` (R48). -/
  memAdmission : MemAdmission
  /-- `CU_REGS0` (R104). -/
  cuRegs0      : CuRegs0
  /-- `CU_RANGE` (R105). -/
  cuRange      : CuRange
  /-- `ODD_IMM8` (R108). -/
  oddImm8      : OddImm8
  deriving DecidableEq, Repr

namespace Config

/-- The UNKNOWN value of an `S` register or of the base register at the `n`-th draw (00_scope.md R15; log 1). -/
opaque freeWord : Nat → Word

/-- The UNKNOWN value of a `D` register at the `n`-th draw (R15; log 1). -/
opaque freeDouble : Nat → DWord

/-- The `n`-th free choice among alternatives the spec lists (R52, R104, R105; log 1). -/
opaque freeChoice : Nat → Nat

end Config

end Sys2Proof
end

