-- ==== Sys2Proof/Syntax.lean ====
section
/-!
DEFINITION. The instructions: one constructor per row of spec/opcode_table.json, carrying the fields the row leaves free
(30_encoding.md R61 to R63, R76). A row's fixed bits, P, U and (where fixed) W among them, are not arguments.
-/
namespace Sys2Proof

/-- The two instruction sets (10_state.md R28). -/
inductive InstrSet where
  | a32
  | t32
  deriving DecidableEq, Repr

/-- The rows of the opcode table. `size` is bit 8 of the pattern, which the UNDEFINED and SEE rows leave free. -/
inductive Instr where
  /-- VLDM / VLDMIA, encoding A1, Increment After (R92). -/
  | vldmA1 (cond : BitVec 4) (dBit wBit : BitVec 1) (rn vd : BitVec 4) (imm8 : BitVec 8)
  /-- VLDMDB, encoding A1, Decrement Before (R93). -/
  | vldmdbA1 (cond : BitVec 4) (dBit : BitVec 1) (rn vd : BitVec 4) (imm8 : BitVec 8)
  /-- VLDM / VLDMIA, encoding A2, Increment After (R94). -/
  | vldmA2 (cond : BitVec 4) (dBit wBit : BitVec 1) (rn vd : BitVec 4) (imm8 : BitVec 8)
  /-- VLDMDB, encoding A2, Decrement Before (R95). -/
  | vldmdbA2 (cond : BitVec 4) (dBit : BitVec 1) (rn vd : BitVec 4) (imm8 : BitVec 8)
  /-- VLDM / VLDMIA, encoding T1, Increment After (R96). -/
  | vldmT1 (dBit wBit : BitVec 1) (rn vd : BitVec 4) (imm8 : BitVec 8)
  /-- VLDMDB, encoding T1, Decrement Before (R97). -/
  | vldmdbT1 (dBit : BitVec 1) (rn vd : BitVec 4) (imm8 : BitVec 8)
  /-- VLDM / VLDMIA, encoding T2, Increment After (R98). -/
  | vldmT2 (dBit wBit : BitVec 1) (rn vd : BitVec 4) (imm8 : BitVec 8)
  /-- VLDMDB, encoding T2, Decrement Before (R99). -/
  | vldmdbT2 (dBit : BitVec 1) (rn vd : BitVec 4) (imm8 : BitVec 8)
  /-- VPOP, the A1 words with W = 1 and Rn = 1101 (R100). -/
  | vpopA1 (cond : BitVec 4) (dBit : BitVec 1) (vd : BitVec 4) (imm8 : BitVec 8)
  /-- VPOP, the A2 words with W = 1 and Rn = 1101 (R100). -/
  | vpopA2 (cond : BitVec 4) (dBit : BitVec 1) (vd : BitVec 4) (imm8 : BitVec 8)
  /-- VPOP, the T1 words with W = 1 and Rn = 1101 (R100). -/
  | vpopT1 (dBit : BitVec 1) (vd : BitVec 4) (imm8 : BitVec 8)
  /-- VPOP, the T2 words with W = 1 and Rn = 1101 (R100). -/
  | vpopT2 (dBit : BitVec 1) (vd : BitVec 4) (imm8 : BitVec 8)
  /-- P U W = 001 in A32: UNDEFINED (R71). -/
  | undefPuw001A32 (cond : BitVec 4) (dBit : BitVec 1) (rn vd : BitVec 4) (size : BitVec 1) (imm8 : BitVec 8)
  /-- P U W = 111 in A32: UNDEFINED (R71). -/
  | undefPuw111A32 (cond : BitVec 4) (dBit : BitVec 1) (rn vd : BitVec 4) (size : BitVec 1) (imm8 : BitVec 8)
  /-- P U W = 001 in T32: UNDEFINED (R71). -/
  | undefPuw001T32 (dBit : BitVec 1) (rn vd : BitVec 4) (size : BitVec 1) (imm8 : BitVec 8)
  /-- P U W = 111 in T32: UNDEFINED (R71). -/
  | undefPuw111T32 (dBit : BitVec 1) (rn vd : BitVec 4) (size : BitVec 1) (imm8 : BitVec 8)
  /-- P U W = 000 in A32: a word of "Related encodings" (R70). -/
  | seeRelatedA32 (cond : BitVec 4) (dBit : BitVec 1) (rn vd : BitVec 4) (size : BitVec 1) (imm8 : BitVec 8)
  /-- P U W = 000 in T32: a word of "Related encodings" (R70). -/
  | seeRelatedT32 (dBit : BitVec 1) (rn vd : BitVec 4) (size : BitVec 1) (imm8 : BitVec 8)
  /-- P = 1, W = 0 in A32: a VLDR word (R70). -/
  | seeVldrA32 (cond : BitVec 4) (uBit dBit : BitVec 1) (rn vd : BitVec 4) (size : BitVec 1) (imm8 : BitVec 8)
  /-- P = 1, W = 0 in T32: a VLDR word (R70). -/
  | seeVldrT32 (uBit dBit : BitVec 1) (rn vd : BitVec 4) (size : BitVec 1) (imm8 : BitVec 8)
  /-- FLDM*X, A1 shape, Increment After, odd imm8 (R73, R108). -/
  | fldmxA1Ia (cond : BitVec 4) (dBit wBit : BitVec 1) (rn vd : BitVec 4) (imm8 : BitVec 8)
  /-- FLDM*X, A1 shape, Decrement Before, odd imm8 (R73, R108). -/
  | fldmxA1Db (cond : BitVec 4) (dBit : BitVec 1) (rn vd : BitVec 4) (imm8 : BitVec 8)
  /-- FLDM*X, T1 shape, Increment After, odd imm8 (R73, R108). -/
  | fldmxT1Ia (dBit wBit : BitVec 1) (rn vd : BitVec 4) (imm8 : BitVec 8)
  /-- FLDM*X, T1 shape, Decrement Before, odd imm8 (R73, R108). -/
  | fldmxT1Db (dBit : BitVec 1) (rn vd : BitVec 4) (imm8 : BitVec 8)
  deriving DecidableEq, Repr

/-- The instruction set a row belongs to (the table's `iset`; 00_scope.md R2). -/
def Instr.instrSet : Instr → InstrSet
  | .vldmA1 .. | .vldmdbA1 .. | .vldmA2 .. | .vldmdbA2 .. | .vpopA1 .. | .vpopA2 .. => .a32
  | .undefPuw001A32 .. | .undefPuw111A32 .. | .seeRelatedA32 .. | .seeVldrA32 .. => .a32
  | .fldmxA1Ia .. | .fldmxA1Db .. => .a32
  | .vldmT1 .. | .vldmdbT1 .. | .vldmT2 .. | .vldmdbT2 .. | .vpopT1 .. | .vpopT2 .. => .t32
  | .undefPuw001T32 .. | .undefPuw111T32 .. | .seeRelatedT32 .. | .seeVldrT32 .. => .t32
  | .fldmxT1Ia .. | .fldmxT1Db .. => .t32

end Sys2Proof
end

