-- ==== Sys2Proof/Decode.lean ====
section
/-!
DEFINITION. The decoder, total on any bytes and rejecting by name, and after it the encoder, both written from the
layouts of 30_encoding.md R60, R61, R63 and the P U W map of R69.
-/
namespace Sys2Proof

/-- Why the decoder gives no instruction. -/
inductive DecodeError where
  /-- Fewer bytes than the instruction has. -/
  | truncated
  /-- An A32 word with cond = 1111, the unconditional space (R61). -/
  | unconditional
  /-- A T32 halfword whose bits 15:11 make it a complete 16-bit instruction (R60). -/
  | halfwordInstruction
  /-- A word outside the bit patterns of R61 and R63 (R77). -/
  | notInTable
  deriving DecidableEq, Repr

/-- What decoding gives: an instruction with the bytes after it, or a rejection. -/
inductive Decoded where
  | instr (i : Instr) (rest : List Byte)
  | rejected (e : DecodeError)
  deriving DecidableEq, Repr

/-! ### The fields of the 32-bit pattern (R61, R63) -/

/-- `cond`, bits 31:28 (in T32 the fixed bits 1110). -/
def fieldCond (w : Word) : BitVec 4 := w.extractLsb' 28 4
/-- The fixed bits 27:25. -/
def fieldOp (w : Word) : BitVec 3 := w.extractLsb' 25 3
/-- `P`, bit 24. -/
def fieldP (w : Word) : BitVec 1 := w.extractLsb' 24 1
/-- `U`, bit 23. -/
def fieldU (w : Word) : BitVec 1 := w.extractLsb' 23 1
/-- `D`, bit 22. -/
def fieldD (w : Word) : BitVec 1 := w.extractLsb' 22 1
/-- `W`, bit 21. -/
def fieldW (w : Word) : BitVec 1 := w.extractLsb' 21 1
/-- Bit 20, 1 for a load. -/
def fieldLoad (w : Word) : BitVec 1 := w.extractLsb' 20 1
/-- `Rn`, bits 19:16. -/
def fieldRn (w : Word) : BitVec 4 := w.extractLsb' 16 4
/-- `Vd`, bits 15:12. -/
def fieldVd (w : Word) : BitVec 4 := w.extractLsb' 12 4
/-- The fixed bits 11:9. -/
def fieldUnit (w : Word) : BitVec 3 := w.extractLsb' 9 3
/-- Bit 8: 1 for a list of `D` registers (A1, T1), 0 for a list of `S` registers (A2, T2). -/
def fieldSize (w : Word) : BitVec 1 := w.extractLsb' 8 1
/-- `imm8`, bits 7:0. -/
def fieldImm8 (w : Word) : BitVec 8 := w.extractLsb' 0 8

/-- The fixed bits that the four formats share (R61, R63). -/
def hasFixedBits (w : Word) : Bool :=
  fieldOp w == 0b110#3 && fieldLoad w == 1#1 && fieldUnit w == 0b101#3

/-- What a word is by `P U W` (R69). -/
inductive PuwClass where
  | related
  | undefined001
  | incrementAfter
  | vldr
  | decrementBefore
  | undefined111
  deriving DecidableEq, Repr

/-- The three tests of R69 in the order written, then the remaining combinations 01x and 101. -/
def puwClass (p u w : BitVec 1) : PuwClass :=
  if p = 0#1 ∧ u = 0#1 ∧ w = 0#1 then .related
  else if p = 1#1 ∧ w = 0#1 then .vldr
  else if p = u ∧ w = 1#1 then (if p = 0#1 then .undefined001 else .undefined111)
  else if u = 1#1 then .incrementAfter
  else .decrementBefore

/-- Bit 0 of `imm8` is 1 (R73). -/
def isOdd (imm8 : BitVec 8) : Bool := imm8.extractLsb' 0 1 == 1#1

/-- VPOP is the name for W = 1 and Rn = 1101 (R85). -/
def isPop (wBit : BitVec 1) (rn : BitVec 4) : Bool := wBit == 1#1 && rn == 0b1101#4

/-- An A32 word with the fixed bits and a condition that is not 1111. -/
def decodeFieldsA32 (w : Word) : Instr :=
  match puwClass (fieldP w) (fieldU w) (fieldW w) with
  | .related => .seeRelatedA32 (fieldCond w) (fieldD w) (fieldRn w) (fieldVd w) (fieldSize w) (fieldImm8 w)
  | .vldr => .seeVldrA32 (fieldCond w) (fieldU w) (fieldD w) (fieldRn w) (fieldVd w) (fieldSize w) (fieldImm8 w)
  | .undefined001 => .undefPuw001A32 (fieldCond w) (fieldD w) (fieldRn w) (fieldVd w) (fieldSize w) (fieldImm8 w)
  | .undefined111 => .undefPuw111A32 (fieldCond w) (fieldD w) (fieldRn w) (fieldVd w) (fieldSize w) (fieldImm8 w)
  | .incrementAfter =>
    if fieldSize w = 1#1 then
      if isOdd (fieldImm8 w) then .fldmxA1Ia (fieldCond w) (fieldD w) (fieldW w) (fieldRn w) (fieldVd w) (fieldImm8 w)
      else if isPop (fieldW w) (fieldRn w) then .vpopA1 (fieldCond w) (fieldD w) (fieldVd w) (fieldImm8 w)
      else .vldmA1 (fieldCond w) (fieldD w) (fieldW w) (fieldRn w) (fieldVd w) (fieldImm8 w)
    else if isPop (fieldW w) (fieldRn w) then .vpopA2 (fieldCond w) (fieldD w) (fieldVd w) (fieldImm8 w)
    else .vldmA2 (fieldCond w) (fieldD w) (fieldW w) (fieldRn w) (fieldVd w) (fieldImm8 w)
  | .decrementBefore =>
    if fieldSize w = 1#1 then
      if isOdd (fieldImm8 w) then .fldmxA1Db (fieldCond w) (fieldD w) (fieldRn w) (fieldVd w) (fieldImm8 w)
      else .vldmdbA1 (fieldCond w) (fieldD w) (fieldRn w) (fieldVd w) (fieldImm8 w)
    else .vldmdbA2 (fieldCond w) (fieldD w) (fieldRn w) (fieldVd w) (fieldImm8 w)

/-- A T32 pattern `hw1:hw2` with the fixed bits and bits 31:28 = 1110. -/
def decodeFieldsT32 (w : Word) : Instr :=
  match puwClass (fieldP w) (fieldU w) (fieldW w) with
  | .related => .seeRelatedT32 (fieldD w) (fieldRn w) (fieldVd w) (fieldSize w) (fieldImm8 w)
  | .vldr => .seeVldrT32 (fieldU w) (fieldD w) (fieldRn w) (fieldVd w) (fieldSize w) (fieldImm8 w)
  | .undefined001 => .undefPuw001T32 (fieldD w) (fieldRn w) (fieldVd w) (fieldSize w) (fieldImm8 w)
  | .undefined111 => .undefPuw111T32 (fieldD w) (fieldRn w) (fieldVd w) (fieldSize w) (fieldImm8 w)
  | .incrementAfter =>
    if fieldSize w = 1#1 then
      if isOdd (fieldImm8 w) then .fldmxT1Ia (fieldD w) (fieldW w) (fieldRn w) (fieldVd w) (fieldImm8 w)
      else if isPop (fieldW w) (fieldRn w) then .vpopT1 (fieldD w) (fieldVd w) (fieldImm8 w)
      else .vldmT1 (fieldD w) (fieldW w) (fieldRn w) (fieldVd w) (fieldImm8 w)
    else if isPop (fieldW w) (fieldRn w) then .vpopT2 (fieldD w) (fieldVd w) (fieldImm8 w)
    else .vldmT2 (fieldD w) (fieldW w) (fieldRn w) (fieldVd w) (fieldImm8 w)
  | .decrementBefore =>
    if fieldSize w = 1#1 then
      if isOdd (fieldImm8 w) then .fldmxT1Db (fieldD w) (fieldRn w) (fieldVd w) (fieldImm8 w)
      else .vldmdbT1 (fieldD w) (fieldRn w) (fieldVd w) (fieldImm8 w)
    else .vldmdbT2 (fieldD w) (fieldRn w) (fieldVd w) (fieldImm8 w)

/-- An A32 word (R61, R77). -/
def decodeA32 (w : Word) (rest : List Byte) : Decoded :=
  if fieldCond w = 0b1111#4 then .rejected .unconditional
  else if hasFixedBits w then .instr (decodeFieldsA32 w) rest
  else .rejected .notInTable

/-- A 32-bit T32 pattern (R63, R77). -/
def decodeT32 (w : Word) (rest : List Byte) : Decoded :=
  if fieldCond w = 0b1110#4 ∧ hasFixedBits w then .instr (decodeFieldsT32 w) rest
  else .rejected .notInTable

/-- `hw1[15:11]` of a 32-bit T32 instruction (R60); the argument is the halfword's upper byte. -/
def startsWideT32 (upper : Byte) : Bool :=
  let top := upper.extractLsb' 3 5
  top == 0b11101#5 || top == 0b11110#5 || top == 0b11111#5

/-- The decoder. The bytes are those at increasing addresses from the program counter: an A32 word is assembled
little-endian, a T32 pattern is `hw1:hw2`, each halfword little-endian (20_memory.md R53). -/
def decode (set : InstrSet) (bytes : List Byte) : Decoded :=
  match set, bytes with
  | .a32, b0 :: b1 :: b2 :: b3 :: rest => decodeA32 (b3 ++ b2 ++ b1 ++ b0) rest
  | .a32, _ => .rejected .truncated
  | .t32, b0 :: b1 :: tail =>
    if startsWideT32 b1 then
      match tail with
      | b2 :: b3 :: rest => decodeT32 (b1 ++ b0 ++ b3 ++ b2) rest
      | _ => .rejected .truncated
    else .rejected .halfwordInstruction
  | .t32, _ => .rejected .truncated

/-! ### The encoder -/

/-- The 32-bit pattern from its fields (R61; R63 with `top` = 1110). -/
def pack (top : BitVec 4) (p u d w : BitVec 1) (rn vd : BitVec 4) (size : BitVec 1) (imm8 : BitVec 8) : Word :=
  top ++ 0b110#3 ++ p ++ u ++ d ++ w ++ 1#1 ++ rn ++ vd ++ 0b101#3 ++ size ++ imm8

/-- The pattern of an instruction. -/
def encode : Instr → Word
  | .vldmA1 cond d w rn vd imm8 => pack cond 0 1 d w rn vd 1 imm8
  | .vldmdbA1 cond d rn vd imm8 => pack cond 1 0 d 1 rn vd 1 imm8
  | .vldmA2 cond d w rn vd imm8 => pack cond 0 1 d w rn vd 0 imm8
  | .vldmdbA2 cond d rn vd imm8 => pack cond 1 0 d 1 rn vd 0 imm8
  | .vldmT1 d w rn vd imm8 => pack 0b1110 0 1 d w rn vd 1 imm8
  | .vldmdbT1 d rn vd imm8 => pack 0b1110 1 0 d 1 rn vd 1 imm8
  | .vldmT2 d w rn vd imm8 => pack 0b1110 0 1 d w rn vd 0 imm8
  | .vldmdbT2 d rn vd imm8 => pack 0b1110 1 0 d 1 rn vd 0 imm8
  | .vpopA1 cond d vd imm8 => pack cond 0 1 d 1 0b1101 vd 1 imm8
  | .vpopA2 cond d vd imm8 => pack cond 0 1 d 1 0b1101 vd 0 imm8
  | .vpopT1 d vd imm8 => pack 0b1110 0 1 d 1 0b1101 vd 1 imm8
  | .vpopT2 d vd imm8 => pack 0b1110 0 1 d 1 0b1101 vd 0 imm8
  | .undefPuw001A32 cond d rn vd size imm8 => pack cond 0 0 d 1 rn vd size imm8
  | .undefPuw111A32 cond d rn vd size imm8 => pack cond 1 1 d 1 rn vd size imm8
  | .undefPuw001T32 d rn vd size imm8 => pack 0b1110 0 0 d 1 rn vd size imm8
  | .undefPuw111T32 d rn vd size imm8 => pack 0b1110 1 1 d 1 rn vd size imm8
  | .seeRelatedA32 cond d rn vd size imm8 => pack cond 0 0 d 0 rn vd size imm8
  | .seeRelatedT32 d rn vd size imm8 => pack 0b1110 0 0 d 0 rn vd size imm8
  | .seeVldrA32 cond u d rn vd size imm8 => pack cond 1 u d 0 rn vd size imm8
  | .seeVldrT32 u d rn vd size imm8 => pack 0b1110 1 u d 0 rn vd size imm8
  | .fldmxA1Ia cond d w rn vd imm8 => pack cond 0 1 d w rn vd 1 imm8
  | .fldmxA1Db cond d rn vd imm8 => pack cond 1 0 d 1 rn vd 1 imm8
  | .fldmxT1Ia d w rn vd imm8 => pack 0b1110 0 1 d w rn vd 1 imm8
  | .fldmxT1Db d rn vd imm8 => pack 0b1110 1 0 d 1 rn vd 1 imm8

/-- Byte `k` of a pattern, byte 0 the least significant. -/
def patternByte (w : Word) (k : Nat) : Byte := w.extractLsb' (8 * k) 8

/-- The bytes of a pattern at increasing addresses (20_memory.md R53). -/
def patternBytes (set : InstrSet) (w : Word) : List Byte :=
  match set with
  | .a32 => [patternByte w 0, patternByte w 1, patternByte w 2, patternByte w 3]
  | .t32 => [patternByte w 2, patternByte w 3, patternByte w 0, patternByte w 1]

/-- The bytes of an instruction at increasing addresses. -/
def encodeBytes (i : Instr) : List Byte := patternBytes i.instrSet (encode i)

/-! ### Words of the opcode table -/

/-- Which instruction set a table word is read in: the table's T32 rows fix bits 31:28 to 1110, and in its A32 rows those
bits are `cond`; the 32 bits of an A32 word with condition AL are also a T32 pattern, and are read as that (log 19). -/
def tableWordSet (w : Word) : InstrSet := if fieldCond w = 0b1110#4 then .t32 else .a32

/-- The instruction the decoder reads from a table word of `nbits` bits. -/
def decodeTableWord (nbits w : Nat) : Option Instr :=
  let pattern := BitVec.ofNat 32 (w % 2 ^ nbits)
  match decode (tableWordSet pattern) (patternBytes (tableWordSet pattern) pattern) with
  | .instr i _ => some i
  | .rejected _ => none

end Sys2Proof
end

