-- ==== Sys2Proof/Machine/State.lean ====
section
/-!
DEFINITION. The state of the machine as plain data (10_state.md), the reasons a step can stop (60_exceptions.md), and the
state after reset (10_state.md R38, 70_reset_and_hazards.md R140; logs 3 to 6).
-/
namespace Sys2Proof.Machine

/-- Memory: the bytes that differ from what an unlisted address reads as, addresses strictly rising (R35, R40; log 6). -/
abbrev Memory := List Host.Cell

/-- The kind a Data Abort carries (R46, R48). -/
inductive AbortKind where
  | alignment
  | memory (kind : MemoryAbort)
  deriving DecidableEq, Repr

/-- The state of the PE and its memory (10_state.md). -/
structure State where
  /-- `R0` to `R14` (R20). -/
  regs     : Vector Word 15
  /-- The address of the instruction being executed (R23). -/
  pc       : Word
  /-- `D0` to `D31`; `S0` to `S31` are views of `D0` to `D15` (R25, R26, R27). -/
  dregs    : Vector DWord 32
  /-- The current instruction set (R28). -/
  iset     : InstrSet
  /-- Condition flag `N` (R29). -/
  flagN    : Bool
  /-- Condition flag `Z` (R29). -/
  flagZ    : Bool
  /-- Condition flag `C` (R29). -/
  flagC    : Bool
  /-- Condition flag `V` (R29). -/
  flagV    : Bool
  /-- `ITSTATE` (R30). -/
  itstate  : BitVec 8
  /-- The byte-order selector `E`: data accesses are big-endian (R31). -/
  e        : Bool
  /-- The DIT bit, which affects timing only (R34). -/
  dit      : Bool
  /-- CPACR (R32, R33). -/
  cpacr    : Word
  /-- NSACR (R32, R33). -/
  nsacr    : Word
  /-- HCPTR (R32, R33). -/
  hcptr    : Word
  /-- FPEXC (R33). -/
  fpexc    : Word
  /-- FPSCR, which no instruction of this family touches (R39). -/
  fpscr    : Word
  /-- The Security state (R32). -/
  security : Security
  /-- The PE mode (R32). -/
  mode     : Mode
  /-- `Mem` (R35). -/
  mem      : Memory
  /-- The implementation parameters (R6); no step changes them. -/
  params   : Params
  /-- The model's own: how many free values the run has drawn (log 1). -/
  draws    : Nat
  deriving DecidableEq, Repr

/-- Where `SEE` and the odd-imm8 comment send a word (30_encoding.md R70, R73). -/
inductive Redirect where
  | relatedEncodings
  | vldr
  | fldmx
  deriving DecidableEq, Repr

/-- The exceptions this instruction can raise (the table of 60_exceptions.md section 1). -/
inductive ExceptionKind where
  | undefinedInstruction
  | hypTrap
  | dataAbort (kind : AbortKind) (addr : Word)
  deriving DecidableEq, Repr

/-- An exception ends the run; each fault carries the state the rules give at the point it is raised (R5, R127; log 7). -/
inductive Fault where
  /-- Undefined Instruction (R120): raised by a word with P = U and W = 1, by the access check, and by the UNDEFINED
  choice of R104 and R105. Safe: the spec's own outcome, and no claim goes past it. -/
  | undefinedInstruction (atFault : State)
  /-- The trap to Hyp mode (R123): raised by the access check. Safe: the spec's own outcome. -/
  | hypTrap (atFault : State)
  /-- Data Abort (R124): raised by a word read that is misaligned or that `MemAdmit` aborts, and by R105's registers-UNKNOWN
  behaviour. `addr` is the failing word address. Safe: the spec's own outcome. -/
  | dataAbort (kind : AbortKind) (addr : Word) (atFault : State)
  deriving DecidableEq, Repr

/-- Why the model gives a step no meaning (R5). A refusal says nothing of the chip, so each is safe. -/
inductive Refusal where
  /-- An instruction whose meaning is not written yet: raised by `exec`'s refused arms only. Safe. -/
  | notModelled (mnemonic : String)
  /-- The bytes at the program counter are no row of the table (R60, R61, R77): raised by the fetch. Safe. -/
  | undecodable (e : DecodeError)
  /-- The word is another instruction (R70, R73): raised by the SEE rows, and by the FLDM*X rows under
  ODD_IMM8 = refuse. Safe. -/
  | redirect (target : Redirect)
  /-- `n == 15` with writeback or in T32: UNPREDICTABLE with no list (R106). Safe. -/
  | unpredictablePcBase
  /-- `regs == 0` under CU_REGS0 = refuse (R104). Safe. -/
  | unpredictableNoRegs
  /-- The list is too long under CU_RANGE = refuse (R105). Safe. -/
  | unpredictableRange
  /-- Odd `imm8` and `d + regs > 16`: UNPREDICTABLE with no list (R107). Safe. -/
  | unpredictableOddList
  /-- T32 with an `ITSTATE` that is not zero and whose low four bits are zero: UNPREDICTABLE (R29). Safe. -/
  | unpredictableItState
  /-- The condition is 1111 (R29, D5). Safe. -/
  | condition1111
  /-- CPACR.cp10 = '10' in the algorithm of R122, whose treatment is refuse. Safe. -/
  | reservedCp10
  /-- The byte range of the transfer crosses the top of the address space (R50). Safe. -/
  | crossesTop
  /-- `MemAdmit` answers `outside` for the word at `addr` (R48). Safe. -/
  | outsideMemory (addr : Word)
  /-- The program counter is not aligned for the instruction set (R24): raised by the fetch. Safe. -/
  | pcMisaligned
  /-- `pc + 4` wraps past 0xFFFFFFFF (R24): raised by the fetch. Safe. -/
  | pcWraps
  deriving DecidableEq, Repr

/-- What a meaning answers. -/
abbrev Result := Host.Outcome State Fault Refusal

/-- The parameters after reset: CU_REGS0, CU_RANGE and ODD_IMM8 at the defaults of R6, the open ones at the model's values
(log 5). -/
def Params.atReset : Params :=
  { fpCheck      := .constant .enabled
    el2          := true
    el3AArch32   := true
    cp10Reserved := .refuse
    memAdmission := .regions []
    cuRegs0      := .refuse
    cuRange      := .refuse
    oddImm8      := .refuse }

/-- The state after reset. The spec gives no reset value (R38): every value is the model's (logs 3 to 6). -/
def State.reset : State :=
  { regs     := Vector.replicate 15 0#32
    pc       := 0#32
    dregs    := Vector.replicate 32 0#64
    iset     := .a32
    flagN    := false
    flagZ    := false
    flagC    := false
    flagV    := false
    itstate  := 0#8
    e        := false
    dit      := false
    cpacr    := 0#32
    nsacr    := 0#32
    hcptr    := 0#32
    fpexc    := 0#32
    fpscr    := 0#32
    security := .secure
    mode     := .supervisor
    mem      := []
    params   := Params.atReset
    draws    := 0 }

end Sys2Proof.Machine

/-- What `MemAdmit` answers when it is any function of the state and the address (R48; log 31): a free value, of which
nothing is known. -/
opaque Sys2Proof.Config.freeAdmit (s : Sys2Proof.Machine.State) (addr : Sys2Proof.Word) : Sys2Proof.Admit
end

