-- ==== Sys2Proof/Machine/Flags.lean ====
section
/-!
DEFINITION. The condition flags and ITSTATE: `ConditionPassed()` and `ITAdvance()` (10_state.md R29, R30). No instruction
of the family writes a flag (R36).
-/
namespace Sys2Proof.Machine

/-- The base condition selected by `cond[3:1]` (R29). -/
def baseCondition (c : BitVec 3) (s : State) : Bool :=
  match c with
  | 0b000#3 => s.flagZ
  | 0b001#3 => s.flagC
  | 0b010#3 => s.flagN
  | 0b011#3 => s.flagV
  | 0b100#3 => s.flagC && !s.flagZ
  | 0b101#3 => s.flagN == s.flagV
  | 0b110#3 => s.flagN == s.flagV && !s.flagZ
  | _ => true

/-- `ConditionHolds(cond)` (R29). -/
def conditionHolds (cond : BitVec 4) (s : State) : Bool :=
  let r := baseCondition (cond.extractLsb' 1 3) s
  if cond.extractLsb' 0 1 = 1#1 ∧ cond ≠ 0b1111#4 then !r else r

/-- `CurrentCond()` (R29): the `cond` field in A32; in T32 the condition of the IT block, `none` where R29 says
UNPREDICTABLE. `instrCond` is `instr[31:28]`. -/
def currentCond (instrCond : BitVec 4) (s : State) : Option (BitVec 4) :=
  match s.iset with
  | .a32 => some instrCond
  | .t32 =>
    if s.itstate.extractLsb' 0 4 ≠ 0#4 then some (s.itstate.extractLsb' 4 4)
    else if s.itstate = 0#8 then some 0b1110#4
    else none

/-- `ITAdvance()` as a function of `ITSTATE` (R30). -/
def itAdvance (it : BitVec 8) : BitVec 8 :=
  if it.extractLsb' 0 3 = 0#3 then 0#8
  else it.extractLsb' 5 3 ++ (it.extractLsb' 0 5 <<< 1)

/-- Line 14 of R90 and `Skip(s)` of R91: the next instruction in address order, ITSTATE advanced in T32 (R23, R30). -/
def advance (s : State) : State :=
  { s with
    pc := s.pc + 4#32
    itstate := match s.iset with
      | .a32 => s.itstate
      | .t32 => itAdvance s.itstate }

end Sys2Proof.Machine
end

