-- ==== Sys2Proof/Machine/Ops.lean ====
section
/-!
DEFINITION. The named operations over registers and memory, the access check, taking an exception, and the fetch.
-/
namespace Sys2Proof.Machine

/-! ### General-purpose registers (R20 to R22) -/

/-- What a read of `R15` gives: the instruction's address plus 8 in A32, plus 4 in T32 (R22; log 10). -/
def readPc (s : State) : Word :=
  match s.iset with
  | .a32 => s.pc + 8#32
  | .t32 => s.pc + 4#32

/-- `R[n]` (R20, R22). -/
def readReg (n : BitVec 4) (s : State) : Word :=
  if h : n.toNat < 15 then s.regs[n.toNat] else readPc s

/-- `R[n] <- v` for `n` in 0 to 14; no rule writes `R15` (R22, R109), and a write of it changes nothing. -/
def writeReg (n : BitVec 4) (v : Word) (s : State) : State :=
  { s with regs := s.regs.setIfInBounds n.toNat v }

/-! ### The SIMD&FP register file (R25 to R27) -/

/-- `D[k]`, `k` in 0 to 31 (R25). -/
def readD (k : Nat) (s : State) : DWord := s.dregs[k]?.getD 0#64

/-- `D[k] <- v` (R25). -/
def writeD (k : Nat) (v : DWord) (s : State) : State :=
  { s with dregs := s.dregs.setIfInBounds k v }

/-- `S[i]`, `i` in 0 to 31: the low half of `D[i DIV 2]` for even `i`, the high half for odd `i` (R27; log 11). -/
def readS (i : Nat) (s : State) : Word :=
  (readD (i / 2) s).extractLsb' (32 * (i % 2)) 32

/-- `S[i] <- v`: the replacement of that half, the other half unchanged (R27). -/
def writeS (i : Nat) (v : Word) (s : State) : State :=
  let old := readD (i / 2) s
  writeD (i / 2) (if i % 2 = 0 then old.extractLsb' 32 32 ++ v else v ++ old.extractLsb' 0 32) s

/-- `Q[k]`, `k` in 0 to 15: `D[2k+1]:D[2k]` (R27). -/
def readQ (k : Nat) (s : State) : BitVec 128 := readD (2 * k + 1) s ++ readD (2 * k) s

/-! ### Memory (R35, R40) -/

/-- What an address that is not listed reads as (log 6). -/
def unlistedByte : Byte := 0#8

/-- The byte at an address. -/
def Memory.read : Memory → Nat → Byte
  | [], _ => unlistedByte
  | (k, v) :: rest, a => if k = a then v else Memory.read rest a

/-- The memory with one byte replaced, in canonical form. Used to place a program (log 20); no instruction stores. -/
def Memory.write : Memory → Nat → Byte → Memory
  | [], a, v => if v = unlistedByte then [] else [(a, v)]
  | (k, x) :: rest, a, v =>
    if a < k then (if v = unlistedByte then (k, x) :: rest else (a, v) :: (k, x) :: rest)
    else if a = k then (if v = unlistedByte then rest else (a, v) :: rest)
    else (k, x) :: Memory.write rest a v

/-- The canonical form: addresses below 2^32 and strictly rising, no entry equal to what an unlisted address reads as. -/
def Memory.wf : Memory → Bool
  | [] => true
  | (k, v) :: rest =>
    decide (k < 2 ^ 32) && v != unlistedByte && rest.all (fun c => decide (k < c.1)) && Memory.wf rest

/-- `Mem[a]` (R35). -/
def readByte (a : Word) (s : State) : Byte := Memory.read s.mem a.toNat

/-- `Mem[a]` replaced, for placing a program. -/
def placeByte (a : Word) (v : Byte) (s : State) : State :=
  { s with mem := Memory.write s.mem a.toNat v }

/-- Bytes placed at increasing addresses from `a`. -/
def placeBytes (a : Word) : List Byte → State → State
  | [], s => s
  | b :: rest, s => placeBytes (a + 1#32) rest (placeByte a b s)

/-- The four bytes at `addr` as one value in the current byte order (R43). -/
def wordAt (addr : Word) (s : State) : Word :=
  let b0 := readByte addr s
  let b1 := readByte (addr + 1#32) s
  let b2 := readByte (addr + 2#32) s
  let b3 := readByte (addr + 3#32) s
  if s.e then b0 ++ b1 ++ b2 ++ b3 else b3 ++ b2 ++ b1 ++ b0

/-- Two words combined "in the correct order for current endianness" (R45). -/
def joinWords (word1 word2 : Word) (s : State) : DWord :=
  if s.e then word1 ++ word2 else word2 ++ word1

/-- `addr` is a multiple of 4 (R46). -/
def isWordAligned (addr : Word) : Bool := addr.extractLsb' 0 2 == 0#2

/-- The region has a byte among the four at `addr`. -/
def touches (r : Region) (addr : Word) : Bool :=
  decide (addr.toNat < r.base + r.size) && decide (r.base < addr.toNat + 4)

/-- The region answers for the word at `addr`: the word touches it, and the mode and the Security state are those it names,
if it names any. -/
def regionApplies (r : Region) (addr : Word) (s : State) : Bool :=
  touches r addr && r.mode.all (fun m => decide (m = s.mode)) && r.security.all (fun z => decide (z = s.security))

/-- The answer of the first region that applies, else `ok`. -/
def regionsAnswer : List Region → Word → State → Admit
  | [], _, _ => .ok
  | r :: rest, addr, s => if regionApplies r addr s then r.answer else regionsAnswer rest addr s

/-- The state as `MemAdmit` may consult it: everything but DIT, which nothing reads (R34), and FPSCR, which the instruction
does not touch (R39). R48 excludes neither; leaving them out is the model's choice (DESIGN CHOICE, log 31). -/
def admitView (s : State) : State := { s with dit := false, fpscr := 0#32 }

/-- `MemAdmit(state, addr, 4)` (R48; log 31): a map of regions, or any function of the state. -/
def memAdmit (addr : Word) (s : State) : Admit :=
  match s.params.memAdmission with
  | .regions map => regionsAnswer map addr s
  | .anyFunction => Config.freeAdmit (admitView s) addr

/-- Why a word read gives no value (R42). -/
inductive ReadFailure where
  | abort (kind : AbortKind) (addr : Word)
  | outside (addr : Word)
  deriving DecidableEq, Repr

/-- What a word read gives (R42). -/
inductive Access where
  | value (w : Word)
  | failed (f : ReadFailure)
  deriving DecidableEq, Repr

/-- `MemRead(addr, 4)` (R42): alignment before `MemAdmit`, then the bytes. -/
def memRead (addr : Word) (s : State) : Access :=
  if isWordAligned addr then
    match memAdmit addr s with
    | .outside => .failed (.outside addr)
    | .abort kind => .failed (.abort (.memory kind) addr)
    | .ok => .value (wordAt addr s)
  else .failed (.abort .alignment addr)

/-! ### The access check (60_exceptions.md R121, R122) -/

/-- The algorithm of R122 over the control registers of R33; `none` is its reserved value, refused. R33 has the cp11 fields
of CPACR and NSACR hold the value of cp10, and calls it UNPREDICTABLE where CPACR's does not; that the check goes on with
`cp10` alone there is the model's choice (DESIGN CHOICE, log 21). -/
def fpAccessFromRegisters (s : State) : Option FpAccess :=
  let nonSecure := decide (s.security = .nonSecure)
  let locked := s.params.el3AArch32 && nonSecure && s.nsacr.extractLsb' 10 1 == 0#1
  let cp10 := if locked then 0b00#2 else s.cpacr.extractLsb' 20 2
  let tcp10 := locked || s.hcptr.extractLsb' 10 1 == 1#1
  let afterCp10 : Option FpAccess :=
    if s.fpexc.extractLsb' 30 1 = 0#1 then some .undefined
    else if s.params.el2 && nonSecure && tcp10 then
      (if s.mode = .hyp then some .undefined else some .hypTrap)
    else some .enabled
  if s.mode = .hyp then afterCp10
  else if cp10 = 0b00#2 then some .undefined
  else if cp10 = 0b01#2 then (if s.mode = .user then some .undefined else afterCp10)
  else if cp10 = 0b10#2 then
    match s.params.cp10Reserved with
    | .refuse => none
    | .disabled => some .undefined
    | .allowed => afterCp10
  else afterCp10

/-- `FPAccess(s)`, the answer of `CheckVFPEnabled(TRUE)` (R121; log 21). -/
def fpAccess (s : State) : Option FpAccess :=
  match s.params.fpCheck with
  | .constant answer => some answer
  | .registers => fpAccessFromRegisters s

/-! ### Free values (R15; log 1) -/

/-- The counter after `k` more draws. -/
def drawn (k : Nat) (s : State) : State := { s with draws := s.draws + k }

/-- An independent UNKNOWN value into each of `S[d]`, ..., `S[d + k - 1]`. -/
def unknownSingles (d : Nat) : Nat → State → State
  | 0, s => s
  | k + 1, s => unknownSingles (d + 1) k (drawn 1 (writeS d (Config.freeWord s.draws) s))

/-- An independent UNKNOWN value into each of `D[d]`, ..., `D[d + k - 1]`. -/
def unknownDoubles (d : Nat) : Nat → State → State
  | 0, s => s
  | k + 1, s => unknownDoubles (d + 1) k (drawn 1 (writeD d (Config.freeDouble s.draws) s))

/-- An UNKNOWN value into `R[n]`. -/
def unknownReg (n : BitVec 4) (s : State) : State :=
  drawn 1 (writeReg n (Config.freeWord s.draws) s)

/-! ### Taking an exception (R5, R127) -/

/-- The exception is reported with the state at the point it is raised and ends the run: no entry sequence, no vector,
no saved state, no return (R127, R128; log 7). -/
def takeException (kind : ExceptionKind) (s : State) : Result :=
  match kind with
  | .undefinedInstruction => .fault (.undefinedInstruction s)
  | .hypTrap => .fault (.hypTrap s)
  | .dataAbort k addr => .fault (.dataAbort k addr s)

/-! ### Instruction fetch (20_memory.md R53, 10_state.md R24) -/

/-- The program counter is aligned for the instruction set: to 4 in A32, to 2 in T32 (R24). -/
def pcAligned (s : State) : Bool :=
  match s.iset with
  | .a32 => s.pc.extractLsb' 0 2 == 0#2
  | .t32 => s.pc.extractLsb' 0 1 == 0#1

/-- `pc + 4` does not wrap past 0xFFFFFFFF (R24). -/
def pcFits (s : State) : Bool := decide (s.pc.toNat + 4 < 2 ^ 32)

/-- The four bytes at the program counter, whatever `MemAdmit` answers there (R53; log 8). -/
def fetchBytes (s : State) : List Byte :=
  [readByte s.pc s, readByte (s.pc + 1#32) s, readByte (s.pc + 2#32) s, readByte (s.pc + 3#32) s]

/-- The instruction at the program counter, or the refusal. -/
def fetch (s : State) : Except Refusal Instr :=
  if !pcAligned s then .error .pcMisaligned
  else if !pcFits s then .error .pcWraps
  else
    match decode s.iset (fetchBytes s) with
    | .rejected e => .error (.undecodable e)
    | .instr i _ => .ok i

/-- The pattern of a table word stored where the next fetch reads, in the instruction set the word belongs to. -/
def placeTableWord (nbits w : Nat) (s : State) : State :=
  let pattern := BitVec.ofNat 32 (w % 2 ^ nbits)
  let set := tableWordSet pattern
  placeBytes s.pc (patternBytes set pattern) { s with iset := set }

end Sys2Proof.Machine
end

