-- ==== Sys2Proof/Machine/Operands.lean ====
section
/-!
DEFINITION. The operand forms and the common Operation: the constants of the decode (30_encoding.md R64 to R68), and
`ExecVLDM` (40_vldm.md R90) with its UNPREDICTABLE cases (R104 to R108) and its aborts (20_memory.md R51, R52).
-/
namespace Sys2Proof.Machine

/-- The constants that `EncodingSpecificOperations()` declares (R64 to R68), with the condition field and `imm8`. -/
structure Transfer where
  /-- `instr[31:28]`. -/
  cond   : BitVec 4
  /-- `single_regs`. -/
  single : Bool
  /-- `add`. -/
  add    : Bool
  /-- `wback`. -/
  wback  : Bool
  /-- `d`, the first register of the list. -/
  d      : Nat
  /-- `n`, the base register. -/
  n      : BitVec 4
  /-- `imm8`, the number of words the writeback counts. -/
  imm8   : BitVec 8
  /-- `regs`, the number of registers of the list. -/
  regs   : Nat
  deriving DecidableEq, Repr

/-- `UInt(D:Vd)`, the first register of a `D` list (R64). -/
def firstDouble (dBit : BitVec 1) (vd : BitVec 4) : Nat := (dBit ++ vd).toNat

/-- `UInt(Vd:D)`, the first register of an `S` list (R64). -/
def firstSingle (dBit : BitVec 1) (vd : BitVec 4) : Nat := (vd ++ dBit).toNat

/-- `imm32 = ZeroExtend(imm8:'00', 32)` (R66). -/
def transferSize (imm8 : BitVec 8) : Word := (imm8 ++ 0b00#2).setWidth 32

/-- `regs = UInt(imm8) DIV 2` of A1 and T1 (R67). -/
def doubleCount (imm8 : BitVec 8) : Nat := imm8.toNat / 2

/-- `regs = UInt(imm8)` of A2 and T2 (R67). -/
def singleCount (imm8 : BitVec 8) : Nat := imm8.toNat

/-- The constants of A1 and T1 (R64 to R68). -/
def doubleTransfer (cond : BitVec 4) (add wback : Bool) (dBit : BitVec 1) (rn vd : BitVec 4) (imm8 : BitVec 8) :
    Transfer :=
  { cond := cond, single := false, add := add, wback := wback, d := firstDouble dBit vd, n := rn, imm8 := imm8,
    regs := doubleCount imm8 }

/-- The constants of A2 and T2 (R64 to R68). -/
def singleTransfer (cond : BitVec 4) (add wback : Bool) (dBit : BitVec 1) (rn vd : BitVec 4) (imm8 : BitVec 8) :
    Transfer :=
  { cond := cond, single := true, add := add, wback := wback, d := firstSingle dBit vd, n := rn, imm8 := imm8,
    regs := singleCount imm8 }

/-- The value of `cond` that T1 and T2 patterns hold in bits 31:28 (R63). -/
def condT32 : BitVec 4 := 0b1110#4

/-! ### Addresses (R90 lines 4, 5, 13) -/

/-- Line 5: the start address, modulo 2^32. -/
def startAddress (t : Transfer) (s : State) : Word :=
  if t.add then readReg t.n s else readReg t.n s - transferSize t.imm8

/-- Line 13: the value the base register gets when `wback`. -/
def writebackValue (t : Transfer) (s : State) : Word :=
  if t.add then readReg t.n s + transferSize t.imm8 else readReg t.n s - transferSize t.imm8

/-- How many word reads the list takes: one per `S` register, two per `D` register (R47). -/
def wordCount (t : Transfer) : Nat := if t.single then t.regs else 2 * t.regs

/-- `k` word addresses upward from `a`. -/
def wordAddresses (a : Word) : Nat → List Word
  | 0 => []
  | k + 1 => a :: wordAddresses (a + 4#32) k

/-- The byte range `[start, start + 4*UInt(imm8))` does not fit below 2^32 (R50; log 18). -/
def crossesTop (t : Transfer) (s : State) : Bool :=
  decide (2 ^ 32 < (startAddress t s).toNat + 4 * t.imm8.toNat)

/-! ### The word reads and the list (R90 lines 7 to 12) -/

/-- The results of all word reads, in increasing address order. -/
def accesses (t : Transfer) (s : State) : List Access :=
  (wordAddresses (startAddress t s) (wordCount t)).map (fun a => memRead a s)

/-- The value of a word read, if it has one. -/
def Access.value? : Access → Option Word
  | .value w => some w
  | .failed _ => none

/-- The failure of a word read, if it failed. -/
def Access.failure? : Access → Option ReadFailure
  | .value _ => none
  | .failed f => some f

/-- Line 9: the words into `S[d]`, `S[d+1]`, ... -/
def loadSingles (d : Nat) : List Word → State → State
  | [], s => s
  | w :: ws, s => loadSingles (d + 1) ws (writeS d w s)

/-- Lines 11 and 12: pairs of words into `D[d]`, `D[d+1]`, ... -/
def loadDoubles (d : Nat) : List Word → State → State
  | w1 :: w2 :: ws, s => loadDoubles (d + 1) ws (writeD d (joinWords w1 w2 s) s)
  | _, s => s

/-- The loop: the words read into the list. -/
def loadList (t : Transfer) (ws : List Word) (s : State) : State :=
  if t.single then loadSingles t.d ws s else loadDoubles t.d ws s

/-- Line 13. `base` is the state before the instruction, whose base register is read. -/
def writeBase (t : Transfer) (base s : State) : State :=
  if t.wback then writeReg t.n (writebackValue t base) s else s

/-! ### A read that fails (R51, R52) -/

/-- The state a Data Abort leaves: every register of the list UNKNOWN, all else as before (R51; log 29). -/
def abortState (t : Transfer) (s : State) : State :=
  if t.single then unknownSingles t.d t.regs (drawn 1 s) else unknownDoubles t.d t.regs (drawn 1 s)

/-- Which failing read is reported: the first of a misaligned transfer (R46), else a free choice (R52; log 14). -/
def reportedFailure (t : Transfer) (f : ReadFailure) (fs : List ReadFailure) (s : State) : ReadFailure :=
  if fs = [] ∨ isWordAligned (startAddress t s) = false then f
  else (f :: fs).getD (Config.freeChoice s.draws % (fs.length + 1)) f

/-- The outcome of a transfer with a failing read. -/
def failTransfer (t : Transfer) (f : ReadFailure) (s : State) : Result :=
  match f with
  | .abort kind addr => takeException (.dataAbort kind addr) (abortState t s)
  | .outside addr => .refused (.outsideMemory addr)

/-! ### The Operation (R90) -/

/-- Lines 4 to 15. -/
def transfer (t : Transfer) (s : State) : Result :=
  if crossesTop t s then .refused .crossesTop
  else
    match (accesses t s).filterMap Access.failure? with
    | f :: fs => failTransfer t (reportedFailure t f fs s) s
    | [] => .next (advance (writeBase t s (loadList t ((accesses t s).filterMap Access.value?) s)))

/-- Line 3, then the rest. -/
def checkedTransfer (t : Transfer) (s : State) : Result :=
  match fpAccess s with
  | none => .refused .reservedCp10
  | some .undefined => takeException .undefinedInstruction s
  | some .hypTrap => takeException .hypTrap s
  | some .enabled => transfer t s

/-- One draw counted once a free choice has been taken and the instruction has completed. -/
def afterChoice (r : Result) : Result :=
  match r with
  | .next u => .next (drawn 1 u)
  | .fault f => .fault f
  | .refused q => .refused q

/-- `regs == 0` (R104). Under `any_listed` the choice among the three behaviours is free. -/
def noRegsCase (t : Transfer) (s : State) : Result :=
  match s.params.cuRegs0 with
  | .undefined => takeException .undefinedInstruction s
  | .nop => .next (advance s)
  | .noRegs => checkedTransfer t s
  | .refuse => .refused .unpredictableNoRegs
  | .anyListed =>
    if Config.freeChoice s.draws % 3 = 0 then takeException .undefinedInstruction s
    else if Config.freeChoice s.draws % 3 = 1 then .next (advance (drawn 1 s))
    else afterChoice (checkedTransfer t s)

/-- The registers of R105's third behaviour: `D[0]` to `D[31]` UNKNOWN, and the base register on writeback. -/
def unknownRange (t : Transfer) (s : State) : State :=
  let all := unknownDoubles 0 32 s
  if t.wback then unknownReg t.n all else all

/-- The kinds of Data Abort, for a free choice among them; any number past the list means that no abort occurs. -/
def abortKindOf : Nat → Option AbortKind
  | 0 => some .alignment
  | 1 => some (.memory .translation)
  | 2 => some (.memory .accessFlag)
  | 3 => some (.memory .domain)
  | 4 => some (.memory .permission)
  | 5 => some (.memory .external)
  | 6 => some (.memory .other)
  | _ => none

/-- R105's third behaviour: registers UNKNOWN, with or without a Data Abort at a word of the range (N22; log 17). The
first draw chooses whether and of which kind, the second the word. R105 does not say whether R50's refusal applies when the range
passes 2^32; that it does not, and that the reported address is then taken modulo 2^32, is the model's choice (DESIGN CHOICE,
log 17). -/
def unknownRangeCase (t : Transfer) (s : State) : Result :=
  match abortKindOf (Config.freeChoice s.draws % 8) with
  | some kind =>
    let word := Config.freeChoice (s.draws + 1) % wordCount t
    takeException (.dataAbort kind (startAddress t s + BitVec.ofNat 32 (4 * word))) (unknownRange t (drawn 2 s))
  | none => .next (advance (unknownRange t (drawn 2 s)))

/-- `regs > 16` (D lists) or `d + regs > 32` (R105). -/
def rangeCase (t : Transfer) (s : State) : Result :=
  match s.params.cuRange with
  | .undefined => takeException .undefinedInstruction s
  | .nop => .next (advance s)
  | .unknownRegs => unknownRangeCase t s
  | .refuse => .refused .unpredictableRange
  | .anyListed =>
    if Config.freeChoice s.draws % 3 = 0 then takeException .undefinedInstruction s
    else if Config.freeChoice s.draws % 3 = 1 then .next (advance (drawn 1 s))
    else unknownRangeCase t (drawn 1 s)

/-- `n == 15 && (wback || CurrentInstrSet() != InstrSet_A32)` (R74, R106). -/
def pcBaseUnpredictable (t : Transfer) (s : State) : Bool :=
  t.n == 15#4 && (t.wback || s.iset != .a32)

/-- `imm8<0> == '1' && (d+regs) > 16` of A1 and T1 (R74, R107). -/
def oddListUnpredictable (t : Transfer) : Bool :=
  !t.single && isOdd t.imm8 && decide (16 < t.d + t.regs)

/-- `(regs > 16 in A1 and T1) || (d+regs) > 32` (R74, R105). -/
def rangeUnpredictable (t : Transfer) : Bool :=
  (!t.single && decide (16 < t.regs)) || decide (32 < t.d + t.regs)

/-- Lines 2c to 2f, then the rest. A word in a case with no list is refused even where a case with a list applies too
(40_vldm.md section 4; log 16). -/
def unpredictableChecks (t : Transfer) (s : State) : Result :=
  if pcBaseUnpredictable t s then .refused .unpredictablePcBase
  else if oddListUnpredictable t then .refused .unpredictableOddList
  else if t.regs = 0 then noRegsCase t s
  else if rangeUnpredictable t then rangeCase t s
  else checkedTransfer t s

/-- Line 1: the body when the condition passes, `Skip(s)` when it fails (R91), a refusal where R29 gives no condition. -/
def conditional (instrCond : BitVec 4) (s : State) (body : Result) : Result :=
  match currentCond instrCond s with
  | none => .refused .unpredictableItState
  | some cond =>
    if cond = 0b1111#4 then .refused .condition1111
    else if conditionHolds cond s then body
    else .next (advance s)

/-- `ExecVLDM` (R90). -/
def execTransfer (t : Transfer) (s : State) : Result :=
  conditional t.cond s (unpredictableChecks t s)

/-- A word with P = U and W = 1 (R71, R120): Undefined Instruction when the condition passes. -/
def execUndefined (cond : BitVec 4) (s : State) : Result :=
  conditional cond s (takeException .undefinedInstruction s)

/-- An odd-imm8 word (R73, R108): refused as FLDM*X, before the condition, or run as the source's text (log 15). -/
def execOdd (t : Transfer) (s : State) : Result :=
  match s.params.oddImm8 with
  | .refuse => .refused (.redirect .fldmx)
  | .asSourcePseudocode => execTransfer t s

end Sys2Proof.Machine
end

