-- ==== Sys2Proof/Machine/Fldmx.lean ====
section
/-!
DEFINITION. FLDM*X, the odd-imm8 words of A1 and T1 shape (30_encoding.md R73, 40_vldm.md R108).
-/
namespace Sys2Proof.Machine

/-- A1 shape, Increment After, odd imm8 (R73, R108). -/
def execFldmxA1Ia (cond : BitVec 4) (dBit wBit : BitVec 1) (rn vd : BitVec 4) (imm8 : BitVec 8) (s : State) :
    Result :=
  execOdd (doubleTransfer cond true (wBit == 1#1) dBit rn vd imm8) s

/-- A1 shape, Decrement Before, odd imm8 (R73, R108). -/
def execFldmxA1Db (cond : BitVec 4) (dBit : BitVec 1) (rn vd : BitVec 4) (imm8 : BitVec 8) (s : State) :
    Result :=
  execOdd (doubleTransfer cond false true dBit rn vd imm8) s

/-- T1 shape, Increment After, odd imm8 (R73, R108). -/
def execFldmxT1Ia (dBit wBit : BitVec 1) (rn vd : BitVec 4) (imm8 : BitVec 8) (s : State) :
    Result :=
  execOdd (doubleTransfer condT32 true (wBit == 1#1) dBit rn vd imm8) s

/-- T1 shape, Decrement Before, odd imm8 (R73, R108). -/
def execFldmxT1Db (dBit : BitVec 1) (rn vd : BitVec 4) (imm8 : BitVec 8) (s : State) :
    Result :=
  execOdd (doubleTransfer condT32 false true dBit rn vd imm8) s

end Sys2Proof.Machine
end

