-- ==== Sys2Proof/Machine/See.lean ====
section
/-!
DEFINITION. The words the decode sends to another instruction (30_encoding.md R70): recognised and refused by the other
instruction's name, before the condition test (R75), whatever the state.
-/
namespace Sys2Proof.Machine

/-- P U W = 000 in A32: SEE "Related encodings" (R70). -/
def execSeeRelatedA32 (_s : State) : Result :=
  .refused (.redirect .relatedEncodings)

/-- P U W = 000 in T32: SEE "Related encodings" (R70). -/
def execSeeRelatedT32 (_s : State) : Result :=
  .refused (.redirect .relatedEncodings)

/-- P = 1, W = 0 in A32: SEE "VLDR" (R70). -/
def execSeeVldrA32 (_s : State) : Result :=
  .refused (.redirect .vldr)

/-- P = 1, W = 0 in T32: SEE "VLDR" (R70). -/
def execSeeVldrT32 (_s : State) : Result :=
  .refused (.redirect .vldr)

end Sys2Proof.Machine
end

