-- ==== Sys2Proof/Machine/Undefined.lean ====
section
/-!
DEFINITION. The words with P = U and W = 1, which are UNDEFINED (30_encoding.md R71).
-/
namespace Sys2Proof.Machine

/-- P U W = 001 in A32 (R71). -/
def execUndefPuw001A32 (cond : BitVec 4) (s : State) :
    Result :=
  execUndefined cond s

/-- P U W = 111 in A32 (R71). -/
def execUndefPuw111A32 (cond : BitVec 4) (s : State) :
    Result :=
  execUndefined cond s

/-- P U W = 001 in T32 (R71). -/
def execUndefPuw001T32 (s : State) : Result :=
  execUndefined condT32 s

/-- P U W = 111 in T32 (R71). -/
def execUndefPuw111T32 (s : State) : Result :=
  execUndefined condT32 s

end Sys2Proof.Machine
end

