-- ==== Sys2Proof/Machine/Vldm.lean ====
section
/-!
DEFINITION. VLDM (VLDMIA) and VLDMDB in the four encodings (40_vldm.md R92 to R99).
-/
namespace Sys2Proof.Machine

/-- VLDM, VLDMIA (A1, Increment After): R92. -/
def execVldmA1 (cond : BitVec 4) (dBit wBit : BitVec 1) (rn vd : BitVec 4) (imm8 : BitVec 8) (s : State) :
    Result :=
  execTransfer (doubleTransfer cond true (wBit == 1#1) dBit rn vd imm8) s

/-- VLDMDB (A1, Decrement Before): R93. -/
def execVldmdbA1 (cond : BitVec 4) (dBit : BitVec 1) (rn vd : BitVec 4) (imm8 : BitVec 8) (s : State) :
    Result :=
  execTransfer (doubleTransfer cond false true dBit rn vd imm8) s

/-- VLDM, VLDMIA (A2, Increment After): R94. -/
def execVldmA2 (cond : BitVec 4) (dBit wBit : BitVec 1) (rn vd : BitVec 4) (imm8 : BitVec 8) (s : State) :
    Result :=
  execTransfer (singleTransfer cond true (wBit == 1#1) dBit rn vd imm8) s

/-- VLDMDB (A2, Decrement Before): R95. -/
def execVldmdbA2 (cond : BitVec 4) (dBit : BitVec 1) (rn vd : BitVec 4) (imm8 : BitVec 8) (s : State) :
    Result :=
  execTransfer (singleTransfer cond false true dBit rn vd imm8) s

/-- VLDM, VLDMIA (T1, Increment After): R96. -/
def execVldmT1 (dBit wBit : BitVec 1) (rn vd : BitVec 4) (imm8 : BitVec 8) (s : State) :
    Result :=
  execTransfer (doubleTransfer condT32 true (wBit == 1#1) dBit rn vd imm8) s

/-- VLDMDB (T1, Decrement Before): R97. -/
def execVldmdbT1 (dBit : BitVec 1) (rn vd : BitVec 4) (imm8 : BitVec 8) (s : State) :
    Result :=
  execTransfer (doubleTransfer condT32 false true dBit rn vd imm8) s

/-- VLDM, VLDMIA (T2, Increment After): R98. -/
def execVldmT2 (dBit wBit : BitVec 1) (rn vd : BitVec 4) (imm8 : BitVec 8) (s : State) :
    Result :=
  execTransfer (singleTransfer condT32 true (wBit == 1#1) dBit rn vd imm8) s

/-- VLDMDB (T2, Decrement Before): R99. -/
def execVldmdbT2 (dBit : BitVec 1) (rn vd : BitVec 4) (imm8 : BitVec 8) (s : State) :
    Result :=
  execTransfer (singleTransfer condT32 false true dBit rn vd imm8) s

end Sys2Proof.Machine
end

