-- ==== Sys2Proof/Machine/Vpop.lean ====
section
/-!
DEFINITION. VPOP in the four encodings: the Increment After words with W = 1 and Rn = 1101 (40_vldm.md R100).
-/
namespace Sys2Proof.Machine

/-- The base register of VPOP, register 13 (R85, R100). -/
def popBase : BitVec 4 := 0b1101#4

/-- VPOP (A1): the VLDM of R92 with n = 13, add and wback true (R100). -/
def execVpopA1 (cond : BitVec 4) (dBit : BitVec 1) (vd : BitVec 4) (imm8 : BitVec 8) (s : State) :
    Result :=
  execTransfer (doubleTransfer cond true true dBit popBase vd imm8) s

/-- VPOP (A2): the VLDM of R94 with n = 13, add and wback true (R100). -/
def execVpopA2 (cond : BitVec 4) (dBit : BitVec 1) (vd : BitVec 4) (imm8 : BitVec 8) (s : State) :
    Result :=
  execTransfer (singleTransfer cond true true dBit popBase vd imm8) s

/-- VPOP (T1): the VLDM of R96 with n = 13, add and wback true (R100). -/
def execVpopT1 (dBit : BitVec 1) (vd : BitVec 4) (imm8 : BitVec 8) (s : State) :
    Result :=
  execTransfer (doubleTransfer condT32 true true dBit popBase vd imm8) s

/-- VPOP (T2): the VLDM of R98 with n = 13, add and wback true (R100). -/
def execVpopT2 (dBit : BitVec 1) (vd : BitVec 4) (imm8 : BitVec 8) (s : State) :
    Result :=
  execTransfer (singleTransfer condT32 true true dBit popBase vd imm8) s

end Sys2Proof.Machine
end

