-- ==== Sys2Proof/Machine/Dispatch.lean ====
section
/-!
DEFINITION. One arm per constructor of `Instr`: a direct call of its meaning.
-/
namespace Sys2Proof.Machine

def exec (i : Instr) (s : State) : Host.Outcome State Fault Refusal :=
  match i with
  | .vldmA1 cond dBit wBit rn vd imm8 => Sys2Proof.Machine.execVldmA1 cond dBit wBit rn vd imm8 s
  | .vldmdbA1 cond dBit rn vd imm8 => Sys2Proof.Machine.execVldmdbA1 cond dBit rn vd imm8 s
  | .vldmA2 cond dBit wBit rn vd imm8 => Sys2Proof.Machine.execVldmA2 cond dBit wBit rn vd imm8 s
  | .vldmdbA2 cond dBit rn vd imm8 => Sys2Proof.Machine.execVldmdbA2 cond dBit rn vd imm8 s
  | .vldmT1 dBit wBit rn vd imm8 => Sys2Proof.Machine.execVldmT1 dBit wBit rn vd imm8 s
  | .vldmdbT1 dBit rn vd imm8 => Sys2Proof.Machine.execVldmdbT1 dBit rn vd imm8 s
  | .vldmT2 dBit wBit rn vd imm8 => Sys2Proof.Machine.execVldmT2 dBit wBit rn vd imm8 s
  | .vldmdbT2 dBit rn vd imm8 => Sys2Proof.Machine.execVldmdbT2 dBit rn vd imm8 s
  | .vpopA1 cond dBit vd imm8 => Sys2Proof.Machine.execVpopA1 cond dBit vd imm8 s
  | .vpopA2 cond dBit vd imm8 => Sys2Proof.Machine.execVpopA2 cond dBit vd imm8 s
  | .vpopT1 dBit vd imm8 => Sys2Proof.Machine.execVpopT1 dBit vd imm8 s
  | .vpopT2 dBit vd imm8 => Sys2Proof.Machine.execVpopT2 dBit vd imm8 s
  | .undefPuw001A32 cond _ _ _ _ _ => Sys2Proof.Machine.execUndefPuw001A32 cond s
  | .undefPuw111A32 cond _ _ _ _ _ => Sys2Proof.Machine.execUndefPuw111A32 cond s
  | .undefPuw001T32 _ _ _ _ _ => Sys2Proof.Machine.execUndefPuw001T32 s
  | .undefPuw111T32 _ _ _ _ _ => Sys2Proof.Machine.execUndefPuw111T32 s
  | .seeRelatedA32 _ _ _ _ _ _ => Sys2Proof.Machine.execSeeRelatedA32 s
  | .seeRelatedT32 _ _ _ _ _ => Sys2Proof.Machine.execSeeRelatedT32 s
  | .seeVldrA32 _ _ _ _ _ _ _ => Sys2Proof.Machine.execSeeVldrA32 s
  | .seeVldrT32 _ _ _ _ _ _ => Sys2Proof.Machine.execSeeVldrT32 s
  | .fldmxA1Ia cond dBit wBit rn vd imm8 => Sys2Proof.Machine.execFldmxA1Ia cond dBit wBit rn vd imm8 s
  | .fldmxA1Db cond dBit rn vd imm8 => Sys2Proof.Machine.execFldmxA1Db cond dBit rn vd imm8 s
  | .fldmxT1Ia dBit wBit rn vd imm8 => Sys2Proof.Machine.execFldmxT1Ia dBit wBit rn vd imm8 s
  | .fldmxT1Db dBit rn vd imm8 => Sys2Proof.Machine.execFldmxT1Db dBit rn vd imm8 s

end Sys2Proof.Machine
end

