-- ==== Sys2Proof/Machine/Step.lean ====
section
/-!
DEFINITION. One step of the PE: fetch, decode, execute (00_scope.md R5, 20_memory.md R53); and a table word placed where
the next step fetches.
-/
namespace Sys2Proof.Machine

/-- One step: the instruction at the program counter is executed; `exec` itself moves past it (R23). -/
def step (s : State) : Host.Outcome State Fault Refusal :=
  match fetch s with
  | .error r => .refused r
  | .ok i => exec i s

/-- The state with a table word stored at the program counter, and the instruction set it belongs to (log 19). -/
def State.withFetchWord (s : State) (nbits w : Nat) : State := placeTableWord nbits w s

end Sys2Proof.Machine
end

