-- ==== Sys2Proof/Machine/Assembler.lean ====
section
/-!
DEFINITION. The assembler's side of the encoding (30_encoding.md R78 to R87): from a register list to fields (R83, R84), and
the printing of a decoded word (R87). No step uses it (R4).
-/
namespace Sys2Proof.Machine

/-- `d<first>-d<last>` as the fields `D`, `Vd`, `imm8`; `none` for a list that is not legal (R83). -/
def assembleDoubles (first last : Nat) : Option (BitVec 1 × BitVec 4 × BitVec 8) :=
  if first ≤ last ∧ last ≤ 31 ∧ last - first + 1 ≤ 16 then
    some (BitVec.ofNat 1 (first / 16), BitVec.ofNat 4 (first % 16), BitVec.ofNat 8 (2 * (last - first + 1)))
  else none

/-- `s<first>-s<last>` as the fields `D`, `Vd`, `imm8`; `none` for a list that is not legal (R84). -/
def assembleSingles (first last : Nat) : Option (BitVec 1 × BitVec 4 × BitVec 8) :=
  if first ≤ last ∧ last ≤ 31 then
    some (BitVec.ofNat 1 (first % 2), BitVec.ofNat 4 (first / 2), BitVec.ofNat 8 (last - first + 1))
  else none

/-- The condition mnemonic, omitted for 1110 (R29, R87). -/
def condText (cond : BitVec 4) : List Char :=
  match cond with
  | 0b0000#4 => ['E', 'Q']
  | 0b0001#4 => ['N', 'E']
  | 0b0010#4 => ['C', 'S']
  | 0b0011#4 => ['C', 'C']
  | 0b0100#4 => ['M', 'I']
  | 0b0101#4 => ['P', 'L']
  | 0b0110#4 => ['V', 'S']
  | 0b0111#4 => ['V', 'C']
  | 0b1000#4 => ['H', 'I']
  | 0b1001#4 => ['L', 'S']
  | 0b1010#4 => ['G', 'E']
  | 0b1011#4 => ['L', 'T']
  | 0b1100#4 => ['G', 'T']
  | 0b1101#4 => ['L', 'E']
  | _ => []

/-- A number below 100 in decimal. -/
def decimalText (k : Nat) : List Char :=
  if k < 10 then [Char.ofNat (48 + k)] else [Char.ofNat (48 + k / 10), Char.ofNat (48 + k % 10)]

/-- `r<n>`, or `sp`, `lr`, `pc` for 13, 14, 15 (R87). -/
def baseText (n : BitVec 4) : List Char :=
  match n with
  | 13#4 => ['s', 'p']
  | 14#4 => ['l', 'r']
  | 15#4 => ['p', 'c']
  | _ => 'r' :: decimalText n.toNat

/-- The register list in its literal braces (characters 123 and 125), one register written alone (R87). -/
def listText (letter : Char) (first count : Nat) : List Char :=
  let one := letter :: decimalText first
  [Char.ofNat 123] ++ (if count = 1 then one else one ++ ['-', letter] ++ decimalText (first + count - 1)) ++
    [Char.ofNat 125]

/-- The text of a transfer whose register list is legal; `none` for a list in an UNPREDICTABLE case (R87), and for condition
1111, which has no mnemonic (R29). -/
def transferText (pop : Bool) (t : Transfer) : Option (List Char) :=
  if t.regs = 0 ∨ rangeUnpredictable t = true ∨ t.cond = 0b1111#4 then none
  else
    let name := if pop then ['V', 'P', 'O', 'P'] else if t.add then ['V', 'L', 'D', 'M'] else ['V', 'L', 'D', 'M', 'D', 'B']
    let base := if pop then [] else baseText t.n ++ (if t.wback then ['!'] else []) ++ [',', ' ']
    some (name ++ condText t.cond ++ [' '] ++ base ++ listText (if t.single then 's' else 'd') t.d t.regs)

/-- `n == 15` in a form where it is UNPREDICTABLE (R74). -/
def pcBaseIllegal (set : InstrSet) (t : Transfer) : Bool := t.n == 15#4 && (t.wback || set != .a32)

/-- The printing rule R87: the text of a VLDM word, `none` for a word that is no VLDM or is in an UNPREDICTABLE case. R87 takes
the condition mnemonic of an A32 word from `cond` and gives no source for a T32 word; that it is then `itCond`, the condition
the enclosing IT block gives the word (1110 outside one), is the model's choice after R80 (DESIGN CHOICE, log 33). -/
def disassemble (itCond : BitVec 4) (i : Instr) : Option (List Char) :=
  let plain (t : Transfer) : Option (List Char) :=
    if pcBaseIllegal i.instrSet t then none else transferText false t
  match i with
  | .vldmA1 cond dBit wBit rn vd imm8 => plain (doubleTransfer cond true (wBit == 1#1) dBit rn vd imm8)
  | .vldmdbA1 cond dBit rn vd imm8 => plain (doubleTransfer cond false true dBit rn vd imm8)
  | .vldmA2 cond dBit wBit rn vd imm8 => plain (singleTransfer cond true (wBit == 1#1) dBit rn vd imm8)
  | .vldmdbA2 cond dBit rn vd imm8 => plain (singleTransfer cond false true dBit rn vd imm8)
  | .vldmT1 dBit wBit rn vd imm8 => plain (doubleTransfer itCond true (wBit == 1#1) dBit rn vd imm8)
  | .vldmdbT1 dBit rn vd imm8 => plain (doubleTransfer itCond false true dBit rn vd imm8)
  | .vldmT2 dBit wBit rn vd imm8 => plain (singleTransfer itCond true (wBit == 1#1) dBit rn vd imm8)
  | .vldmdbT2 dBit rn vd imm8 => plain (singleTransfer itCond false true dBit rn vd imm8)
  | .vpopA1 cond dBit vd imm8 => transferText true (doubleTransfer cond true true dBit 13#4 vd imm8)
  | .vpopA2 cond dBit vd imm8 => transferText true (singleTransfer cond true true dBit 13#4 vd imm8)
  | .vpopT1 dBit vd imm8 => transferText true (doubleTransfer itCond true true dBit 13#4 vd imm8)
  | .vpopT2 dBit vd imm8 => transferText true (singleTransfer itCond true true dBit 13#4 vd imm8)
  | .undefPuw001A32 .. | .undefPuw111A32 .. | .undefPuw001T32 .. | .undefPuw111T32 .. => none
  | .seeRelatedA32 .. | .seeRelatedT32 .. | .seeVldrA32 .. | .seeVldrT32 .. => none
  | .fldmxA1Ia .. | .fldmxA1Db .. | .fldmxT1Ia .. | .fldmxT1Db .. => none

end Sys2Proof.Machine
end

