-- ==== Sys2Proof/WellFormed.lean ====
section
/-!
DEFINITION. Which terms of `Instr` stand for a word of their row: the table's side conditions on the free fields
(30_encoding.md R61, R73, R76, R85).
-/
namespace Sys2Proof

/-- `cond` is not 1111, the unconditional space (R61). -/
def WellFormed.condition (cond : BitVec 4) : Bool := cond != 0b1111#4

/-- Bit 0 of `imm8` is 0: an A1 or T1 word that is a VLDM (R73). -/
def WellFormed.evenImm (imm8 : BitVec 8) : Bool := imm8.extractLsb' 0 1 == 0#1

/-- Bit 0 of `imm8` is 1: an FLDM*X word (R73). -/
def WellFormed.oddImm (imm8 : BitVec 8) : Bool := imm8.extractLsb' 0 1 == 1#1

/-- The word is not one that VPOP names: not (W = 1 and Rn = 1101) (R85). -/
def WellFormed.notPop (wBit : BitVec 1) (rn : BitVec 4) : Bool := !(wBit == 1#1 && rn == 0b1101#4)

/-- The side conditions of each row. -/
def WellFormed.check : Instr → Bool
  | .vldmA1 cond _ wBit rn _ imm8 =>
    WellFormed.condition cond && WellFormed.evenImm imm8 && WellFormed.notPop wBit rn
  | .vldmdbA1 cond _ _ _ imm8 => WellFormed.condition cond && WellFormed.evenImm imm8
  | .vldmA2 cond _ wBit rn _ _ => WellFormed.condition cond && WellFormed.notPop wBit rn
  | .vldmdbA2 cond _ _ _ _ => WellFormed.condition cond
  | .vldmT1 _ wBit rn _ imm8 => WellFormed.evenImm imm8 && WellFormed.notPop wBit rn
  | .vldmdbT1 _ _ _ imm8 => WellFormed.evenImm imm8
  | .vldmT2 _ wBit rn _ _ => WellFormed.notPop wBit rn
  | .vldmdbT2 _ _ _ _ => true
  | .vpopA1 cond _ _ imm8 => WellFormed.condition cond && WellFormed.evenImm imm8
  | .vpopA2 cond _ _ _ => WellFormed.condition cond
  | .vpopT1 _ _ imm8 => WellFormed.evenImm imm8
  | .vpopT2 _ _ _ => true
  | .undefPuw001A32 cond _ _ _ _ _ => WellFormed.condition cond
  | .undefPuw111A32 cond _ _ _ _ _ => WellFormed.condition cond
  | .undefPuw001T32 _ _ _ _ _ => true
  | .undefPuw111T32 _ _ _ _ _ => true
  | .seeRelatedA32 cond _ _ _ _ _ => WellFormed.condition cond
  | .seeRelatedT32 _ _ _ _ _ => true
  | .seeVldrA32 cond _ _ _ _ _ _ => WellFormed.condition cond
  | .seeVldrT32 _ _ _ _ _ _ => true
  | .fldmxA1Ia cond _ _ _ _ imm8 => WellFormed.condition cond && WellFormed.oddImm imm8
  | .fldmxA1Db cond _ _ _ imm8 => WellFormed.condition cond && WellFormed.oddImm imm8
  | .fldmxT1Ia _ _ _ _ imm8 => WellFormed.oddImm imm8
  | .fldmxT1Db _ _ _ imm8 => WellFormed.oddImm imm8

/-- `i` is a word of its row. -/
abbrev WellFormed (i : Instr) : Prop := WellFormed.check i = true

end Sys2Proof
end

