-- ==== Sys2Proof/Safety.lean ====
section
/-!
DEFINITION. The words in which the claims are stated: when the condition passes, when a transfer runs normally, what it
loads, what it leaves alone, and the invariant of the machine.
-/
namespace Sys2Proof.Machine

/-- `ConditionPassed()` is true (R29): the condition exists, is not 1111, and holds. -/
def conditionPasses (instrCond : BitVec 4) (s : State) : Bool :=
  match currentCond instrCond s with
  | some cond => cond != 0b1111#4 && conditionHolds cond s
  | none => false

/-- `ConditionPassed()` is false (R29, R91): the condition exists, is not 1111, and does not hold. -/
def conditionFails (instrCond : BitVec 4) (s : State) : Bool :=
  match currentCond instrCond s with
  | some cond => cond != 0b1111#4 && !conditionHolds cond s
  | none => false

/-- The address of the `i`-th word of a transfer, counted upward from the start address (the table after R91). -/
def wordAddress (t : Transfer) (s : State) (i : Nat) : Word := startAddress t s + BitVec.ofNat 32 (4 * i)

/-- The decode of a transfer ends in no UNPREDICTABLE case (R74): the base may be the PC only in A32 without writeback, the
list has a register, at most 16 of them in a `D` list, ends at register 31, and with an odd `imm8` at `D15`. -/
structure LegalList (t : Transfer) (s : State) : Prop where
  pcBase : t.n = 15#4 → t.wback = false ∧ s.iset = .a32
  some   : 0 < t.regs
  short  : t.single = false → t.regs ≤ 16
  fits   : t.d + t.regs ≤ 32
  odd    : t.single = false → isOdd t.imm8 = true → t.d + t.regs ≤ 16

/-- The conditions under which the spec has a transfer complete (R90, R142): the condition passes, the decode is legal,
access is enabled, the start address is a multiple of 4, the byte range fits below 2^32, and every word is admitted. -/
structure RunsNormally (t : Transfer) (s : State) : Prop where
  passes   : conditionPasses t.cond s = true
  legal    : LegalList t s
  enabled  : fpAccess s = some .enabled
  aligned  : isWordAligned (startAddress t s) = true
  inRange  : (startAddress t s).toNat + 4 * t.imm8.toNat ≤ 2 ^ 32
  admitted : ∀ i < wordCount t, memAdmit (wordAddress t s i) s = .ok

/-- The doubleword at `a` in the current byte order (R45). -/
def doubleAt (a : Word) (s : State) : DWord := joinWords (wordAt a s) (wordAt (a + 4#32) s) s

/-- `D[d]`, ..., `D[d+regs-1]` hold the doublewords of `s` at `start`, `start + 8`, ...; every other `D` register is as in
`s` (R90, R92). -/
def LoadsDoubles (d regs : Nat) (start : Word) (s u : State) : Prop :=
  ∀ k < 32, readD k u =
    if d ≤ k ∧ k < d + regs then doubleAt (start + BitVec.ofNat 32 (8 * (k - d))) s else readD k s

/-- `S[d]`, ..., `S[d+regs-1]` hold the words of `s` at `start`, `start + 4`, ...; every other `S` register, and `D16` to
`D31`, are as in `s` (R90, R94, R27). -/
def LoadsSingles (d regs : Nat) (start : Word) (s u : State) : Prop :=
  (∀ k < 32, readS k u =
    if d ≤ k ∧ k < d + regs then wordAt (start + BitVec.ofNat 32 (4 * (k - d))) s else readS k s) ∧
  ∀ k < 32, 16 ≤ k → readD k u = readD k s

/-- `R[n]` holds `v` when `wback`, and every other of `R0` to `R14` is as in `s` (R90 line 13, R21). -/
def BaseBecomes (wback : Bool) (n : BitVec 4) (v : Word) (s u : State) : Prop :=
  ∀ m : BitVec 4, m ≠ 15#4 → readReg m u = if wback = true ∧ m = n then v else readReg m s

/-- What every instruction that answers a next state leaves alone (R36): `u` differs from `s` in the general-purpose
registers, the `D` file, `pc`, `ITSTATE` and the model's draw counter only. -/
structure SameElsewhere (s u : State) : Prop where
  iset     : u.iset = s.iset
  flagN    : u.flagN = s.flagN
  flagZ    : u.flagZ = s.flagZ
  flagC    : u.flagC = s.flagC
  flagV    : u.flagV = s.flagV
  e        : u.e = s.e
  dit      : u.dit = s.dit
  cpacr    : u.cpacr = s.cpacr
  nsacr    : u.nsacr = s.nsacr
  hcptr    : u.hcptr = s.hcptr
  fpexc    : u.fpexc = s.fpexc
  fpscr    : u.fpscr = s.fpscr
  security : u.security = s.security
  mode     : u.mode = s.mode
  mem      : u.mem = s.mem
  params   : u.params = s.params

/-- Every byte of memory reads as before. -/
def SameBytes (s u : State) : Prop := ∀ a : Word, readByte a u = readByte a s

/-- The instruction is done and the next one in address order follows: `pc + 4` modulo 2^32 (R23), `ITSTATE` advanced in
T32 only (R30). -/
def MovesOn (s u : State) : Prop :=
  u.pc = s.pc + 4#32 ∧ u.itstate = if s.iset = .t32 then itAdvance s.itstate else s.itstate

/-- The state a fault carries (R5). -/
def Fault.state : Fault → State
  | .undefinedInstruction s => s
  | .hypTrap s => s
  | .dataAbort _ _ s => s

/-- `ITSTATE` is zero in A32; in T32 it is zero or its low four bits are not (R29, R30). -/
def itLegal (s : State) : Bool :=
  match s.iset with
  | .a32 => s.itstate == 0#8
  | .t32 => s.itstate == 0#8 || s.itstate.extractLsb' 0 4 != 0#4

/-- The invariant of the machine: the program counter is aligned for the instruction set (R24), `ITSTATE` is legal (R30),
and memory is in canonical form. -/
structure State.Inv (s : State) : Prop where
  pc  : pcAligned s = true
  it  : itLegal s = true
  mem : Memory.wf s.mem = true

/-- The constants of the decode of a VLDM, VPOP or FLDM*X word (R64 to R68, R100); `none` for every other row. -/
def transferOf : Instr → Option Transfer
  | .vldmA1 cond dBit wBit rn vd imm8 => some (doubleTransfer cond true (wBit == 1#1) dBit rn vd imm8)
  | .vldmdbA1 cond dBit rn vd imm8 => some (doubleTransfer cond false true dBit rn vd imm8)
  | .vldmA2 cond dBit wBit rn vd imm8 => some (singleTransfer cond true (wBit == 1#1) dBit rn vd imm8)
  | .vldmdbA2 cond dBit rn vd imm8 => some (singleTransfer cond false true dBit rn vd imm8)
  | .vldmT1 dBit wBit rn vd imm8 => some (doubleTransfer 0b1110#4 true (wBit == 1#1) dBit rn vd imm8)
  | .vldmdbT1 dBit rn vd imm8 => some (doubleTransfer 0b1110#4 false true dBit rn vd imm8)
  | .vldmT2 dBit wBit rn vd imm8 => some (singleTransfer 0b1110#4 true (wBit == 1#1) dBit rn vd imm8)
  | .vldmdbT2 dBit rn vd imm8 => some (singleTransfer 0b1110#4 false true dBit rn vd imm8)
  | .vpopA1 cond dBit vd imm8 => some (doubleTransfer cond true true dBit 13#4 vd imm8)
  | .vpopA2 cond dBit vd imm8 => some (singleTransfer cond true true dBit 13#4 vd imm8)
  | .vpopT1 dBit vd imm8 => some (doubleTransfer 0b1110#4 true true dBit 13#4 vd imm8)
  | .vpopT2 dBit vd imm8 => some (singleTransfer 0b1110#4 true true dBit 13#4 vd imm8)
  | .fldmxA1Ia cond dBit wBit rn vd imm8 => some (doubleTransfer cond true (wBit == 1#1) dBit rn vd imm8)
  | .fldmxA1Db cond dBit rn vd imm8 => some (doubleTransfer cond false true dBit rn vd imm8)
  | .fldmxT1Ia dBit wBit rn vd imm8 => some (doubleTransfer 0b1110#4 true (wBit == 1#1) dBit rn vd imm8)
  | .fldmxT1Db dBit rn vd imm8 => some (doubleTransfer 0b1110#4 false true dBit rn vd imm8)
  | .undefPuw001A32 .. | .undefPuw111A32 .. | .undefPuw001T32 .. | .undefPuw111T32 .. => none
  | .seeRelatedA32 .. | .seeRelatedT32 .. | .seeVldrA32 .. | .seeVldrT32 .. => none

/-- The word has P = U and W = 1 (R71). -/
def isUndefinedWord : Instr → Bool
  | .undefPuw001A32 .. | .undefPuw111A32 .. | .undefPuw001T32 .. | .undefPuw111T32 .. => true
  | _ => false

/-- The word is another instruction's and is refused whatever the condition: a SEE word (R70), or an FLDM*X word under
ODD_IMM8 = refuse (R73). -/
def isRedirected (i : Instr) (s : State) : Bool :=
  match i with
  | .seeRelatedA32 .. | .seeRelatedT32 .. | .seeVldrA32 .. | .seeVldrT32 .. => true
  | .fldmxA1Ia .. | .fldmxA1Db .. | .fldmxT1Ia .. | .fldmxT1Db .. => s.params.oddImm8 == .refuse
  | _ => false

/-- The word is executed by R90 with the constants `t`: it has them, and it is not redirected. -/
def Executes (i : Instr) (t : Transfer) (s : State) : Prop := transferOf i = some t ∧ isRedirected i s = false

/-- No register outside the list of a transfer differs: the other `D` registers for a `D` list; the other `S` registers
and `D16` to `D31` for an `S` list (R51, R27). -/
def SameOutsideList (t : Transfer) (s u : State) : Prop :=
  if t.single then
    (∀ k < 32, ¬(t.d ≤ k ∧ k < t.d + t.regs) → readS k u = readS k s) ∧ ∀ k < 32, 16 ≤ k → readD k u = readD k s
  else ∀ k < 32, ¬(t.d ≤ k ∧ k < t.d + t.regs) → readD k u = readD k s

/-- The same outcome with every state in it changed by `f`. -/
def mapStates (f : State → State) : Result → Result
  | .next u => .next (f u)
  | .fault (.undefinedInstruction u) => .fault (.undefinedInstruction (f u))
  | .fault (.hypTrap u) => .fault (.hypTrap (f u))
  | .fault (.dataAbort kind addr u) => .fault (.dataAbort kind addr (f u))
  | .refused r => .refused r

end Sys2Proof.Machine
end

