-- ==== Sys2Proof/Certificates/Slice0/Obligations.lean ====
section
/-!
DEFINITION. The statements for the provers. Each docstring names the rules of spec/ it formalises or rests on.
-/

open Sys2Proof Sys2Proof.Machine

/-! ### Encoding -/

/-- Words written out bit by bit from R61 and R63, one per family and format, decode to the instruction they stand for (the
words are those of 95_test_vectors.md section 2.1).
The bit positions are log 9. -/
def Obligations.WrittenWordsDecode : Prop :=
  decode .a32 [0x04#8, 0x0B#8, 0xB0#8, 0xEC#8] = .instr (.vldmA1 0b1110#4 0#1 1#1 0#4 0#4 4#8) [] ∧
  decode .t32 [0xB0#8, 0xEC#8, 0x04#8, 0x0B#8] = .instr (.vldmT1 0#1 1#1 0#4 0#4 4#8) [] ∧
  decode .a32 [0x01#8, 0x0A#8, 0xD2#8, 0xEC#8] = .instr (.vldmA2 0b1110#4 1#1 0#1 2#4 0#4 1#8) [] ∧
  decode .a32 [0x01#8, 0xFA#8, 0x72#8, 0xAD#8] = .instr (.vldmdbA2 0b1010#4 1#1 2#4 15#4 1#8) [] ∧
  decode .t32 [0x31#8, 0xED#8, 0x04#8, 0x4B#8] = .instr (.vldmdbT1 0#1 1#4 4#4 4#8) [] ∧
  decode .a32 [0x10#8, 0x8B#8, 0xBD#8, 0xEC#8] = .instr (.vpopA1 0b1110#4 0#1 8#4 16#8) [] ∧
  decode .t32 [0xFD#8, 0xEC#8, 0x01#8, 0x1A#8] = .instr (.vpopT2 1#1 1#4 1#8) [] ∧
  decode .a32 [0x04#8, 0x0B#8, 0x30#8, 0xEC#8] = .instr (.undefPuw001A32 0b1110#4 0#1 0#4 0#4 1#1 4#8) [] ∧
  decode .a32 [0x04#8, 0x0B#8, 0x90#8, 0xED#8] = .instr (.seeVldrA32 0b1110#4 1#1 0#1 0#4 0#4 1#1 4#8) [] ∧
  decode .a32 [0x05#8, 0x0B#8, 0x90#8, 0xEC#8] = .instr (.fldmxA1Ia 0b1110#4 0#1 0#1 0#4 0#4 5#8) [] ∧
  decode .a32 [0x04#8, 0x0B#8, 0x90#8, 0xFC#8] = .rejected .unconditional ∧
  decode .a32 [0x04#8, 0x0B#8, 0x80#8, 0xEC#8] = .rejected .notInTable

/-- Decoding the bytes of every well-formed instruction gives it back, with the bytes after it (R53, R60, R61, R63, R69).
The bit positions are log 9. -/
def Obligations.DecodeInvertsEncode : Prop :=
  ∀ (i : Instr) (rest : List Byte), WellFormed i → decode i.instrSet (encodeBytes i ++ rest) = .instr i rest

/-- Whatever the decoder accepts is a well-formed instruction of the instruction set it was asked for, and its encoding is
the bytes that were read: no bit of a word is dropped, and no two words share an instruction (R60, R61, R63, R69, R76).
The bit positions are log 9. -/
def Obligations.EncodeInvertsDecode : Prop :=
  ∀ (set : InstrSet) (bytes rest : List Byte) (i : Instr), decode set bytes = .instr i rest →
    WellFormed i ∧ i.instrSet = set ∧ bytes = encodeBytes i ++ rest

/-- The complete map of the eight values of P U W (R69). -/
def Obligations.PuwMapIsComplete : Prop :=
  puwClass 0 0 0 = .related ∧ puwClass 0 0 1 = .undefined001 ∧ puwClass 0 1 0 = .incrementAfter ∧
  puwClass 0 1 1 = .incrementAfter ∧ puwClass 1 0 0 = .vldr ∧ puwClass 1 0 1 = .decrementBefore ∧
  puwClass 1 1 0 = .vldr ∧ puwClass 1 1 1 = .undefined111

/-- The first register number: `16*UInt(D) + UInt(Vd)` for a `D` list, `2*UInt(Vd) + UInt(D)` for an `S` list (R64). -/
def Obligations.FirstRegisterNumber : Prop :=
  ∀ (dBit : BitVec 1) (vd : BitVec 4),
    firstDouble dBit vd = 16 * dBit.toNat + vd.toNat ∧ firstSingle dBit vd = 2 * vd.toNat + dBit.toNat ∧
    firstDouble dBit vd ≤ 31 ∧ firstSingle dBit vd ≤ 31

/-- The transfer size is `4*UInt(imm8)`, a multiple of 4 from 0 to 1020; it is what separates the base from the start of a
Decrement Before transfer and from the written-back base in both directions (R66). -/
def Obligations.TransferSizeIsFourTimesImm8 : Prop :=
  (∀ imm8 : BitVec 8, (transferSize imm8).toNat = 4 * imm8.toNat ∧ (transferSize imm8).toNat ≤ 1020 ∧
    4 ∣ (transferSize imm8).toNat) ∧
  ∀ (t : Transfer) (s : State),
    startAddress t s = (if t.add then readReg t.n s else readReg t.n s - transferSize t.imm8) ∧
    writebackValue t s = (if t.add then readReg t.n s + transferSize t.imm8 else readReg t.n s - transferSize t.imm8)

/-- The register count: `UInt(imm8) DIV 2` for a `D` list, `UInt(imm8)` for an `S` list, and for an even `imm8` the
writeback amount equals the bytes transferred (R67). -/
def Obligations.RegisterCount : Prop :=
  ∀ imm8 : BitVec 8,
    doubleCount imm8 = imm8.toNat / 2 ∧ singleCount imm8 = imm8.toNat ∧ doubleCount imm8 ≤ 127 ∧ singleCount imm8 ≤ 255 ∧
    (isOdd imm8 = false → 8 * doubleCount imm8 = (transferSize imm8).toNat) ∧
    4 * singleCount imm8 = (transferSize imm8).toNat

/-- A register list that an assembler accepts is encoded in fields from which the decode computes the same first register
and the same count, in a list that is legal (R83, R84). -/
def Obligations.AssembledListDecodes : Prop :=
  (∀ (first last : Nat) (dBit : BitVec 1) (vd : BitVec 4) (imm8 : BitVec 8),
    assembleDoubles first last = some (dBit, vd, imm8) →
      firstDouble dBit vd = first ∧ doubleCount imm8 = last - first + 1 ∧ isOdd imm8 = false ∧
      1 ≤ doubleCount imm8 ∧ doubleCount imm8 ≤ 16 ∧ first + doubleCount imm8 ≤ 32) ∧
  ∀ (first last : Nat) (dBit : BitVec 1) (vd : BitVec 4) (imm8 : BitVec 8),
    assembleSingles first last = some (dBit, vd, imm8) →
      firstSingle dBit vd = first ∧ singleCount imm8 = last - first + 1 ∧
      1 ≤ singleCount imm8 ∧ first + singleCount imm8 ≤ 32

/-! ### Registers, flags, bytes -/

/-- The `S` registers are the halves of `D0` to `D15`: a write of one `S` register changes only its 32 bits, a write of a
`D` register changes both its halves, and `Q[k]` is `D[2k+1]:D[2k]` (R27).
The mapping is log 11. -/
def Obligations.SinglesAreHalvesOfDoubles : Prop :=
  ∀ s : State,
    (∀ k < 16, readS (2 * k) s = (readD k s).extractLsb' 0 32 ∧ readS (2 * k + 1) s = (readD k s).extractLsb' 32 32) ∧
    (∀ i < 32, ∀ v : Word, (∀ j < 32, readS j (writeS i v s) = if j = i then v else readS j s) ∧
      ∀ k < 32, k ≠ i / 2 → readD k (writeS i v s) = readD k s) ∧
    (∀ k < 32, ∀ v : DWord, (∀ j < 32, readD j (writeD k v s) = if j = k then v else readD j s) ∧
      (k < 16 → readS (2 * k) (writeD k v s) = v.extractLsb' 0 32 ∧
        readS (2 * k + 1) (writeD k v s) = v.extractLsb' 32 32)) ∧
    ∀ k < 16, readQ k s = readD (2 * k + 1) s ++ readD (2 * k) s

/-- `R0` to `R14` are ordinary storage; `R15` reads as the instruction's address plus 8 in A32 (plus 4 in T32) and is never
written (R20, R22).
The offsets, and that a write of `R15` is discarded, are log 10. -/
def Obligations.BaseRegisterReads : Prop :=
  (∀ (m n : BitVec 4) (v : Word) (s : State), n ≠ 15#4 →
    readReg m (writeReg n v s) = if m = n then v else readReg m s) ∧
  (∀ s : State, s.iset = .a32 → readReg 15#4 s = s.pc + 8#32) ∧
  (∀ s : State, s.iset = .t32 → readReg 15#4 s = s.pc + 4#32) ∧
  ∀ (v : Word) (s : State), writeReg 15#4 v s = s

/-- The condition table and `CurrentCond()` (R29).
The table is log 13. -/
def Obligations.ConditionTable : Prop :=
  ∀ s : State,
    conditionHolds 0b0000#4 s = s.flagZ ∧ conditionHolds 0b0001#4 s = !s.flagZ ∧
    conditionHolds 0b0010#4 s = s.flagC ∧ conditionHolds 0b0011#4 s = !s.flagC ∧
    conditionHolds 0b0100#4 s = s.flagN ∧ conditionHolds 0b0101#4 s = !s.flagN ∧
    conditionHolds 0b0110#4 s = s.flagV ∧ conditionHolds 0b0111#4 s = !s.flagV ∧
    conditionHolds 0b1000#4 s = (s.flagC && !s.flagZ) ∧ conditionHolds 0b1001#4 s = (!s.flagC || s.flagZ) ∧
    conditionHolds 0b1010#4 s = (s.flagN == s.flagV) ∧ conditionHolds 0b1011#4 s = (s.flagN != s.flagV) ∧
    conditionHolds 0b1100#4 s = (s.flagN == s.flagV && !s.flagZ) ∧
    conditionHolds 0b1101#4 s = (s.flagN != s.flagV || s.flagZ) ∧ conditionHolds 0b1110#4 s = true ∧
    ∀ c : BitVec 4,
      (s.iset = .a32 → currentCond c s = some c) ∧
      (s.iset = .t32 → s.itstate.extractLsb' 0 4 ≠ 0#4 → currentCond c s = some (s.itstate.extractLsb' 4 4)) ∧
      (s.iset = .t32 → s.itstate = 0#8 → currentCond c s = some 0b1110#4) ∧
      (s.iset = .t32 → s.itstate.extractLsb' 0 4 = 0#4 → s.itstate ≠ 0#8 → currentCond c s = none)

/-- `ITAdvance()`: zero when the low three bits are zero, else the low five bits move up by one place and the upper three
stay (R30).
The advance is log 13. -/
def Obligations.ItAdvanceShiftsTheMask : Prop :=
  ∀ it : BitVec 8,
    (itAdvance it).toNat = if it.toNat % 8 = 0 then 0 else 32 * (it.toNat / 32) + 2 * (it.toNat % 32) % 32

/-- Byte order inside a word: the byte at the lowest address is the least significant one when `E` is 0 and the most
significant one when `E` is 1 (R43).
The convention is log 28. -/
def Obligations.WordByteOrder : Prop :=
  ∀ (a : Word) (s : State),
    (s.e = false → (wordAt a s).extractLsb' 0 8 = readByte a s ∧ (wordAt a s).extractLsb' 8 8 = readByte (a + 1) s ∧
      (wordAt a s).extractLsb' 16 8 = readByte (a + 2) s ∧ (wordAt a s).extractLsb' 24 8 = readByte (a + 3) s) ∧
    (s.e = true → (wordAt a s).extractLsb' 24 8 = readByte a s ∧ (wordAt a s).extractLsb' 16 8 = readByte (a + 1) s ∧
      (wordAt a s).extractLsb' 8 8 = readByte (a + 2) s ∧ (wordAt a s).extractLsb' 0 8 = readByte (a + 3) s)

/-- A doubleword is the 8 bytes at its address read as one number in the current byte order (R45).
The convention inside a word is log 28. -/
def Obligations.DoublewordByteOrder : Prop :=
  ∀ (a : Word) (s : State) (j : Nat), j < 8 →
    (s.e = false → (doubleAt a s).extractLsb' (8 * j) 8 = readByte (a + BitVec.ofNat 32 j) s) ∧
    (s.e = true → (doubleAt a s).extractLsb' (56 - 8 * j) 8 = readByte (a + BitVec.ofNat 32 j) s)

/-- The read primitive: alignment first, then `MemAdmit`, then the four bytes in the current byte order (R42).
The byte order is log 28. -/
def Obligations.WordReadOutcomes : Prop :=
  ∀ (a : Word) (s : State),
    (a.toNat % 4 ≠ 0 → memRead a s = .failed (.abort .alignment a)) ∧
    (a.toNat % 4 = 0 → memAdmit a s = .outside → memRead a s = .failed (.outside a)) ∧
    (∀ kind, a.toNat % 4 = 0 → memAdmit a s = .abort kind → memRead a s = .failed (.abort (.memory kind) a)) ∧
    (a.toNat % 4 = 0 → memAdmit a s = .ok → memRead a s = .value
      (if s.e then readByte a s ++ readByte (a + 1) s ++ readByte (a + 2) s ++ readByte (a + 3) s
       else readByte (a + 3) s ++ readByte (a + 2) s ++ readByte (a + 1) s ++ readByte a s))

/-! ### What each instruction loads, and that it completes -/

/-- VLDM A1: the doublewords upward from `R[n]` into the list, and `R[n] + 8*regs` into the base when W = 1 (R92). -/
def Obligations.VldmA1LoadsDoublewords : Prop :=
  ∀ (cond : BitVec 4) (dBit wBit : BitVec 1) (rn vd : BitVec 4) (imm8 : BitVec 8) (s : State),
    isOdd imm8 = false → RunsNormally (doubleTransfer cond true (wBit == 1#1) dBit rn vd imm8) s →
    ∃ u, exec (.vldmA1 cond dBit wBit rn vd imm8) s = .next u ∧
      LoadsDoubles (16 * dBit.toNat + vd.toNat) (imm8.toNat / 2) (readReg rn s) s u ∧
      BaseBecomes (wBit == 1#1) rn (readReg rn s + BitVec.ofNat 32 (8 * (imm8.toNat / 2))) s u ∧
      MovesOn s u ∧ SameElsewhere s u ∧ SameBytes s u ∧ u.draws = s.draws

/-- VLDMDB A1: the doublewords upward from `R[n] - 8*regs`, which the base receives (R93). -/
def Obligations.VldmdbA1LoadsDoublewords : Prop :=
  ∀ (cond : BitVec 4) (dBit : BitVec 1) (rn vd : BitVec 4) (imm8 : BitVec 8) (s : State),
    isOdd imm8 = false → RunsNormally (doubleTransfer cond false true dBit rn vd imm8) s →
    ∃ u, exec (.vldmdbA1 cond dBit rn vd imm8) s = .next u ∧
      LoadsDoubles (16 * dBit.toNat + vd.toNat) (imm8.toNat / 2)
        (readReg rn s - BitVec.ofNat 32 (8 * (imm8.toNat / 2))) s u ∧
      BaseBecomes true rn (readReg rn s - BitVec.ofNat 32 (8 * (imm8.toNat / 2))) s u ∧
      MovesOn s u ∧ SameElsewhere s u ∧ SameBytes s u ∧ u.draws = s.draws

/-- VLDM A2: the words upward from `R[n]` into the list, and `R[n] + 4*regs` into the base when W = 1 (R94). -/
def Obligations.VldmA2LoadsWords : Prop :=
  ∀ (cond : BitVec 4) (dBit wBit : BitVec 1) (rn vd : BitVec 4) (imm8 : BitVec 8) (s : State),
    RunsNormally (singleTransfer cond true (wBit == 1#1) dBit rn vd imm8) s →
    ∃ u, exec (.vldmA2 cond dBit wBit rn vd imm8) s = .next u ∧
      LoadsSingles (2 * vd.toNat + dBit.toNat) imm8.toNat (readReg rn s) s u ∧
      BaseBecomes (wBit == 1#1) rn (readReg rn s + BitVec.ofNat 32 (4 * imm8.toNat)) s u ∧
      MovesOn s u ∧ SameElsewhere s u ∧ SameBytes s u ∧ u.draws = s.draws

/-- VLDMDB A2: the words upward from `R[n] - 4*regs`, which the base receives (R95). -/
def Obligations.VldmdbA2LoadsWords : Prop :=
  ∀ (cond : BitVec 4) (dBit : BitVec 1) (rn vd : BitVec 4) (imm8 : BitVec 8) (s : State),
    RunsNormally (singleTransfer cond false true dBit rn vd imm8) s →
    ∃ u, exec (.vldmdbA2 cond dBit rn vd imm8) s = .next u ∧
      LoadsSingles (2 * vd.toNat + dBit.toNat) imm8.toNat (readReg rn s - BitVec.ofNat 32 (4 * imm8.toNat)) s u ∧
      BaseBecomes true rn (readReg rn s - BitVec.ofNat 32 (4 * imm8.toNat)) s u ∧
      MovesOn s u ∧ SameElsewhere s u ∧ SameBytes s u ∧ u.draws = s.draws

/-- VLDM T1: as VLDM A1, with the condition of the IT block and `ITSTATE` advanced (R96). -/
def Obligations.VldmT1LoadsDoublewords : Prop :=
  ∀ (dBit wBit : BitVec 1) (rn vd : BitVec 4) (imm8 : BitVec 8) (s : State),
    isOdd imm8 = false → RunsNormally (doubleTransfer 0b1110#4 true (wBit == 1#1) dBit rn vd imm8) s →
    ∃ u, exec (.vldmT1 dBit wBit rn vd imm8) s = .next u ∧
      LoadsDoubles (16 * dBit.toNat + vd.toNat) (imm8.toNat / 2) (readReg rn s) s u ∧
      BaseBecomes (wBit == 1#1) rn (readReg rn s + BitVec.ofNat 32 (8 * (imm8.toNat / 2))) s u ∧
      MovesOn s u ∧ SameElsewhere s u ∧ SameBytes s u ∧ u.draws = s.draws

/-- VLDMDB T1: as VLDMDB A1, with the condition of the IT block and `ITSTATE` advanced (R97). -/
def Obligations.VldmdbT1LoadsDoublewords : Prop :=
  ∀ (dBit : BitVec 1) (rn vd : BitVec 4) (imm8 : BitVec 8) (s : State),
    isOdd imm8 = false → RunsNormally (doubleTransfer 0b1110#4 false true dBit rn vd imm8) s →
    ∃ u, exec (.vldmdbT1 dBit rn vd imm8) s = .next u ∧
      LoadsDoubles (16 * dBit.toNat + vd.toNat) (imm8.toNat / 2)
        (readReg rn s - BitVec.ofNat 32 (8 * (imm8.toNat / 2))) s u ∧
      BaseBecomes true rn (readReg rn s - BitVec.ofNat 32 (8 * (imm8.toNat / 2))) s u ∧
      MovesOn s u ∧ SameElsewhere s u ∧ SameBytes s u ∧ u.draws = s.draws

/-- VLDM T2: as VLDM A2, with the condition of the IT block and `ITSTATE` advanced (R98). -/
def Obligations.VldmT2LoadsWords : Prop :=
  ∀ (dBit wBit : BitVec 1) (rn vd : BitVec 4) (imm8 : BitVec 8) (s : State),
    RunsNormally (singleTransfer 0b1110#4 true (wBit == 1#1) dBit rn vd imm8) s →
    ∃ u, exec (.vldmT2 dBit wBit rn vd imm8) s = .next u ∧
      LoadsSingles (2 * vd.toNat + dBit.toNat) imm8.toNat (readReg rn s) s u ∧
      BaseBecomes (wBit == 1#1) rn (readReg rn s + BitVec.ofNat 32 (4 * imm8.toNat)) s u ∧
      MovesOn s u ∧ SameElsewhere s u ∧ SameBytes s u ∧ u.draws = s.draws

/-- VLDMDB T2: as VLDMDB A2, with the condition of the IT block and `ITSTATE` advanced (R99). -/
def Obligations.VldmdbT2LoadsWords : Prop :=
  ∀ (dBit : BitVec 1) (rn vd : BitVec 4) (imm8 : BitVec 8) (s : State),
    RunsNormally (singleTransfer 0b1110#4 false true dBit rn vd imm8) s →
    ∃ u, exec (.vldmdbT2 dBit rn vd imm8) s = .next u ∧
      LoadsSingles (2 * vd.toNat + dBit.toNat) imm8.toNat (readReg rn s - BitVec.ofNat 32 (4 * imm8.toNat)) s u ∧
      BaseBecomes true rn (readReg rn s - BitVec.ofNat 32 (4 * imm8.toNat)) s u ∧
      MovesOn s u ∧ SameElsewhere s u ∧ SameBytes s u ∧ u.draws = s.draws

/-- VPOP of `D` registers (A1, T1): the list from `R13` upward, and `R13` increased by the bytes loaded (R100). -/
def Obligations.VpopLoadsDoublewords : Prop :=
  ∀ (cond : BitVec 4) (dBit : BitVec 1) (vd : BitVec 4) (imm8 : BitVec 8) (s : State), isOdd imm8 = false →
    ∀ i : Instr,
    (i = .vpopA1 cond dBit vd imm8 ∧ RunsNormally (doubleTransfer cond true true dBit 13#4 vd imm8) s) ∨
    (i = .vpopT1 dBit vd imm8 ∧ RunsNormally (doubleTransfer 0b1110#4 true true dBit 13#4 vd imm8) s) →
    ∃ u, exec i s = .next u ∧
      LoadsDoubles (16 * dBit.toNat + vd.toNat) (imm8.toNat / 2) (readReg 13#4 s) s u ∧
      BaseBecomes true 13#4 (readReg 13#4 s + BitVec.ofNat 32 (8 * (imm8.toNat / 2))) s u ∧
      MovesOn s u ∧ SameElsewhere s u ∧ SameBytes s u ∧ u.draws = s.draws

/-- VPOP of `S` registers (A2, T2): the list from `R13` upward, and `R13` increased by the bytes loaded (R100). -/
def Obligations.VpopLoadsWords : Prop :=
  ∀ (cond : BitVec 4) (dBit : BitVec 1) (vd : BitVec 4) (imm8 : BitVec 8) (s : State) (i : Instr),
    (i = .vpopA2 cond dBit vd imm8 ∧ RunsNormally (singleTransfer cond true true dBit 13#4 vd imm8) s) ∨
    (i = .vpopT2 dBit vd imm8 ∧ RunsNormally (singleTransfer 0b1110#4 true true dBit 13#4 vd imm8) s) →
    ∃ u, exec i s = .next u ∧
      LoadsSingles (2 * vd.toNat + dBit.toNat) imm8.toNat (readReg 13#4 s) s u ∧
      BaseBecomes true 13#4 (readReg 13#4 s + BitVec.ofNat 32 (4 * imm8.toNat)) s u ∧
      MovesOn s u ∧ SameElsewhere s u ∧ SameBytes s u ∧ u.draws = s.draws

/-- FLDM*X Increment After (A1 and T1 shape, odd `imm8 = 2*regs + 1`) under ODD_IMM8 = as_source_pseudocode: `regs`
doublewords from `R[n]`, and `R[n] + 8*regs + 4` into the base when W = 1 (R108). -/
def Obligations.FldmxIncrementAfterLoads : Prop :=
  ∀ (cond : BitVec 4) (dBit wBit : BitVec 1) (rn vd : BitVec 4) (imm8 : BitVec 8) (s : State),
    isOdd imm8 = true → s.params.oddImm8 = .asSourcePseudocode → ∀ i : Instr,
    (i = .fldmxA1Ia cond dBit wBit rn vd imm8 ∧
      RunsNormally (doubleTransfer cond true (wBit == 1#1) dBit rn vd imm8) s) ∨
    (i = .fldmxT1Ia dBit wBit rn vd imm8 ∧
      RunsNormally (doubleTransfer 0b1110#4 true (wBit == 1#1) dBit rn vd imm8) s) →
    ∃ u, exec i s = .next u ∧
      LoadsDoubles (16 * dBit.toNat + vd.toNat) ((imm8.toNat - 1) / 2) (readReg rn s) s u ∧
      BaseBecomes (wBit == 1#1) rn (readReg rn s + BitVec.ofNat 32 (8 * ((imm8.toNat - 1) / 2) + 4)) s u ∧
      MovesOn s u ∧ SameElsewhere s u ∧ SameBytes s u ∧ u.draws = s.draws

/-- FLDM*X Decrement Before under ODD_IMM8 = as_source_pseudocode: the transfer starts at `R[n] - 8*regs - 4`, which the
base receives, and the highest word below the old base is not read (R108). -/
def Obligations.FldmxDecrementBeforeLoads : Prop :=
  ∀ (cond : BitVec 4) (dBit : BitVec 1) (rn vd : BitVec 4) (imm8 : BitVec 8) (s : State),
    isOdd imm8 = true → s.params.oddImm8 = .asSourcePseudocode → ∀ i : Instr,
    (i = .fldmxA1Db cond dBit rn vd imm8 ∧ RunsNormally (doubleTransfer cond false true dBit rn vd imm8) s) ∨
    (i = .fldmxT1Db dBit rn vd imm8 ∧ RunsNormally (doubleTransfer 0b1110#4 false true dBit rn vd imm8) s) →
    ∃ u, exec i s = .next u ∧
      LoadsDoubles (16 * dBit.toNat + vd.toNat) ((imm8.toNat - 1) / 2)
        (readReg rn s - BitVec.ofNat 32 (8 * ((imm8.toNat - 1) / 2) + 4)) s u ∧
      BaseBecomes true rn (readReg rn s - BitVec.ofNat 32 (8 * ((imm8.toNat - 1) / 2) + 4)) s u ∧
      MovesOn s u ∧ SameElsewhere s u ∧ SameBytes s u ∧ u.draws = s.draws

/-- The same bytes loaded once as `D[k]`, ... (A1) and once as `S[2k], S[2k+1]`, ... (A2): the same state when
little-endian; the two halves of each loaded register swapped when big-endian (R45). -/
def Obligations.SameBytesThroughEitherView : Prop :=
  ∀ (cond : BitVec 4) (wBit : BitVec 1) (rn vd : BitVec 4) (imm8 : BitVec 8) (s : State),
    isOdd imm8 = false → vd.toNat + imm8.toNat / 2 ≤ 16 →
    RunsNormally (doubleTransfer cond true (wBit == 1#1) 0#1 rn vd imm8) s →
    ∃ u v, exec (.vldmA1 cond 0#1 wBit rn vd imm8) s = .next u ∧ exec (.vldmA2 cond 0#1 wBit rn vd imm8) s = .next v ∧
      (s.e = false → u = v) ∧
      (s.e = true → ∀ k, vd.toNat ≤ k → k < vd.toNat + imm8.toNat / 2 →
        readS (2 * k) u = readS (2 * k + 1) v ∧ readS (2 * k + 1) u = readS (2 * k) v)

/-- VPOP words run as the VLDM words they are, and the T32 forms as the A32 forms with the pattern's 1110 in the place of
the condition (R96 to R100). No word decodes to some of these terms: the VLDM terms beside VPOP are not well formed (log 22),
and each T32 form is set beside an A32 term in one and the same state. R96 to R99 give no meaning to an A32 term in T32, nor to a
T32 term in A32; that `exec` has one there is the model's choice, log 27. -/
def Obligations.EncodingsShareOneOperation : Prop :=
  ∀ (cond : BitVec 4) (dBit wBit : BitVec 1) (rn vd : BitVec 4) (imm8 : BitVec 8) (s : State),
    exec (.vpopA1 cond dBit vd imm8) s = exec (.vldmA1 cond dBit 1#1 13#4 vd imm8) s ∧
    exec (.vpopA2 cond dBit vd imm8) s = exec (.vldmA2 cond dBit 1#1 13#4 vd imm8) s ∧
    exec (.vpopT1 dBit vd imm8) s = exec (.vldmT1 dBit 1#1 13#4 vd imm8) s ∧
    exec (.vpopT2 dBit vd imm8) s = exec (.vldmT2 dBit 1#1 13#4 vd imm8) s ∧
    exec (.vldmT1 dBit wBit rn vd imm8) s = exec (.vldmA1 0b1110#4 dBit wBit rn vd imm8) s ∧
    exec (.vldmdbT1 dBit rn vd imm8) s = exec (.vldmdbA1 0b1110#4 dBit rn vd imm8) s ∧
    exec (.vldmT2 dBit wBit rn vd imm8) s = exec (.vldmA2 0b1110#4 dBit wBit rn vd imm8) s ∧
    exec (.vldmdbT2 dBit rn vd imm8) s = exec (.vldmdbA2 0b1110#4 dBit rn vd imm8) s

/-! ### Condition, UNDEFINED words, words of other instructions -/

/-- When the condition fails, every word that is not redirected is skipped: the next state differs in `pc` and, in T32, in
`ITSTATE` only, whatever the access check and the UNPREDICTABLE tests would say (R91). The condition field is bits 31:28 of
the pattern. That an UNDEFINED or trapped word is skipped too is the reading of log 12. -/
def Obligations.FailedConditionSkips : Prop :=
  ∀ (i : Instr) (s : State), isRedirected i s = false → conditionFails (fieldCond (encode i)) s = true →
    exec i s = .next { s with
      pc := s.pc + 4#32, itstate := if s.iset = .t32 then itAdvance s.itstate else s.itstate }

/-- The UNDEFINED words P U W = 001 and 111: Undefined Instruction with the state unchanged when the condition passes;
skipped when it fails (R71). -/
def Obligations.UndefinedWordsFaultOrSkip : Prop :=
  ∀ (cond : BitVec 4) (dBit : BitVec 1) (rn vd : BitVec 4) (size : BitVec 1) (imm8 : BitVec 8) (s : State) (i : Instr)
    (c : BitVec 4),
    (i = .undefPuw001A32 cond dBit rn vd size imm8 ∧ c = cond) ∨ (i = .undefPuw111A32 cond dBit rn vd size imm8 ∧ c = cond) ∨
    (i = .undefPuw001T32 dBit rn vd size imm8 ∧ c = 0b1110#4) ∨ (i = .undefPuw111T32 dBit rn vd size imm8 ∧ c = 0b1110#4) →
    (conditionPasses c s = true → exec i s = .fault (.undefinedInstruction s)) ∧
    (conditionFails c s = true → exec i s = .next { s with
      pc := s.pc + 4#32, itstate := if s.iset = .t32 then itAdvance s.itstate else s.itstate })

/-- A word with the fixed bits and P U W = 000, or P = 1 and W = 0, is recognised and refused by the other instruction's
name in every state (R70). -/
def Obligations.RedirectedWordsAreRefused : Prop :=
  ∀ (cond : BitVec 4) (uBit dBit : BitVec 1) (rn vd : BitVec 4) (size : BitVec 1) (imm8 : BitVec 8) (s : State),
    (cond ≠ 0b1111#4 →
      decode .a32 (patternBytes .a32 (pack cond 0 0 dBit 0 rn vd size imm8)) =
        .instr (.seeRelatedA32 cond dBit rn vd size imm8) [] ∧
      decode .a32 (patternBytes .a32 (pack cond 1 uBit dBit 0 rn vd size imm8)) =
        .instr (.seeVldrA32 cond uBit dBit rn vd size imm8) []) ∧
    decode .t32 (patternBytes .t32 (pack 0b1110 0 0 dBit 0 rn vd size imm8)) =
      .instr (.seeRelatedT32 dBit rn vd size imm8) [] ∧
    decode .t32 (patternBytes .t32 (pack 0b1110 1 uBit dBit 0 rn vd size imm8)) =
      .instr (.seeVldrT32 uBit dBit rn vd size imm8) [] ∧
    exec (.seeRelatedA32 cond dBit rn vd size imm8) s = .refused (.redirect .relatedEncodings) ∧
    exec (.seeRelatedT32 dBit rn vd size imm8) s = .refused (.redirect .relatedEncodings) ∧
    exec (.seeVldrA32 cond uBit dBit rn vd size imm8) s = .refused (.redirect .vldr) ∧
    exec (.seeVldrT32 uBit dBit rn vd size imm8) s = .refused (.redirect .vldr)

/-- The setting after reset is the spec's default ODD_IMM8 = refuse, and under it an FLDM*X word is refused as FLDM*X in every
state (R73). That it is so even when the condition fails is the model's choice, log 15. -/
def Obligations.FldmxRefusedByDefault : Prop :=
  State.reset.params.oddImm8 = .refuse ∧
  ∀ (cond : BitVec 4) (dBit wBit : BitVec 1) (rn vd : BitVec 4) (imm8 : BitVec 8) (s : State),
    s.params.oddImm8 = .refuse →
    exec (.fldmxA1Ia cond dBit wBit rn vd imm8) s = .refused (.redirect .fldmx) ∧
    exec (.fldmxA1Db cond dBit rn vd imm8) s = .refused (.redirect .fldmx) ∧
    exec (.fldmxT1Ia dBit wBit rn vd imm8) s = .refused (.redirect .fldmx) ∧
    exec (.fldmxT1Db dBit rn vd imm8) s = .refused (.redirect .fldmx)

/-- In T32 with a condition that R29 does not give (an `ITSTATE` that is not zero with a zero low half), or with condition
1111 in the IT block, every word that is not redirected is refused (R29).
That both are refused is log 13. -/
def Obligations.NoConditionIsRefused : Prop :=
  ∀ (i : Instr) (s : State), isRedirected i s = false → s.iset = .t32 →
    (s.itstate.extractLsb' 0 4 = 0#4 → s.itstate ≠ 0#8 → exec i s = .refused .unpredictableItState) ∧
    (s.itstate.extractLsb' 0 4 ≠ 0#4 → s.itstate.extractLsb' 4 4 = 0b1111#4 → exec i s = .refused .condition1111)

/-! ### UNPREDICTABLE cases -/

/-- The PC as base with writeback, or in T32, is refused whatever else the word is (R106).
That this case is tested first is log 16. -/
def Obligations.PcBaseIsRefused : Prop :=
  ∀ (i : Instr) (t : Transfer) (s : State), Executes i t s → conditionPasses t.cond s = true → t.n = 15#4 →
    (t.wback = true ∨ s.iset ≠ .a32) → exec i s = .refused .unpredictablePcBase

/-- An odd `imm8` whose list passes `D15` is refused whatever else the word is (R107).
That this case is tested before the cases with a list is log 16. -/
def Obligations.OddListPastD15IsRefused : Prop :=
  ∀ (i : Instr) (t : Transfer) (s : State), Executes i t s → conditionPasses t.cond s = true →
    (t.n = 15#4 → t.wback = false ∧ s.iset = .a32) → t.single = false → isOdd t.imm8 = true → 16 < t.d + t.regs →
    exec i s = .refused .unpredictableOddList

/-- An empty list under each setting of CU_REGS0 (R104): UNDEFINED; NOP; the access check and then only the base changed, by
`imm32`; refuse; or one of the three listed behaviours. The counter of draws is the model's own, log 1. -/
def Obligations.EmptyListTreatments : Prop :=
  ∀ (i : Instr) (t : Transfer) (s : State), Executes i t s → conditionPasses t.cond s = true →
    (t.n = 15#4 → t.wback = false ∧ s.iset = .a32) → t.regs = 0 →
    ¬(t.single = false ∧ isOdd t.imm8 = true ∧ 16 < t.d) →
    (s.params.cuRegs0 = .undefined → exec i s = .fault (.undefinedInstruction s)) ∧
    (s.params.cuRegs0 = .nop → exec i s = .next (advance s)) ∧
    (s.params.cuRegs0 = .refuse → exec i s = .refused .unpredictableNoRegs) ∧
    (s.params.cuRegs0 = .noRegs →
      (fpAccess s = some .undefined → exec i s = .fault (.undefinedInstruction s)) ∧
      (fpAccess s = some .hypTrap → exec i s = .fault (.hypTrap s)) ∧
      (fpAccess s = some .enabled → (startAddress t s).toNat + 4 * t.imm8.toNat ≤ 2 ^ 32 →
        ∃ u, exec i s = .next u ∧ BaseBecomes t.wback t.n (writebackValue t s) s u ∧ u.dregs = s.dregs ∧
          MovesOn s u ∧ SameElsewhere s u ∧ (t.imm8 = 0#8 → u = advance s))) ∧
    (s.params.cuRegs0 = .anyListed →
      exec i s = .fault (.undefinedInstruction s) ∨ exec i s = .next (advance (drawn 1 s)) ∨
      exec i s = afterChoice (checkedTransfer t s))

/-- A list that is too long under each setting of CU_RANGE (R105): UNDEFINED; NOP; registers UNKNOWN, and the base when
writeback is asked for, with or without a Data Abort at a word of the range; refuse; or one of the listed behaviours.
That under unknown_regs the access check and the top-of-memory test (R50) are not made is the model's choice, log 17, and
the counter of draws is the model's own, log 1. -/
def Obligations.LongListTreatments : Prop :=
  ∀ (i : Instr) (t : Transfer) (s : State), Executes i t s → conditionPasses t.cond s = true →
    (t.n = 15#4 → t.wback = false ∧ s.iset = .a32) → ¬(t.single = false ∧ isOdd t.imm8 = true) →
    (t.single = false ∧ 16 < t.regs) ∨ 32 < t.d + t.regs →
    (s.params.cuRange = .undefined → exec i s = .fault (.undefinedInstruction s)) ∧
    (s.params.cuRange = .nop → exec i s = .next (advance s)) ∧
    (s.params.cuRange = .refuse → exec i s = .refused .unpredictableRange) ∧
    (s.params.cuRange = .unknownRegs →
      (∃ u, exec i s = .next u ∧ MovesOn s u ∧ SameElsewhere s u ∧
        ∀ m : BitVec 4, m ≠ 15#4 → ¬(t.wback = true ∧ m = t.n) → readReg m u = readReg m s) ∨
      (∃ kind j u, j < wordCount t ∧ exec i s = .fault (.dataAbort kind (wordAddress t s j) u) ∧ u.pc = s.pc ∧
        u.itstate = s.itstate ∧ SameElsewhere s u ∧
        ∀ m : BitVec 4, m ≠ 15#4 → ¬(t.wback = true ∧ m = t.n) → readReg m u = readReg m s)) ∧
    (s.params.cuRange = .anyListed →
      exec i s = .fault (.undefinedInstruction s) ∨ exec i s = .next (advance (drawn 1 s)) ∨
      exec i s = unknownRangeCase t (drawn 1 s))

/-! ### The access check and the exceptions -/

/-- When the access check answers HypTrap, a word that reaches it is trapped to Hyp mode with the state unchanged, whatever
its addresses are (R123). -/
def Obligations.HypTrapLeavesTheState : Prop :=
  ∀ (i : Instr) (t : Transfer) (s : State), Executes i t s → conditionPasses t.cond s = true → LegalList t s →
    fpAccess s = some .hypTrap → exec i s = .fault (.hypTrap s)

/-- When the access check answers Undefined, a word that reaches it is UNDEFINED, and the check comes before the reads: no
condition on the addresses is needed (R121, R126). -/
def Obligations.DisabledAccessIsUndefined : Prop :=
  ∀ (i : Instr) (t : Transfer) (s : State), Executes i t s → conditionPasses t.cond s = true → LegalList t s →
    fpAccess s = some .undefined → exec i s = .fault (.undefinedInstruction s)

/-- Undefined Instruction is raised with the state unchanged, when the condition passes, and only for a word with P = U and
W = 1, for the access check's answer Undefined, or under a setting that admits the UNDEFINED choice of R104 or R105 (R120). -/
def Obligations.UndefinedInstructionCauses : Prop :=
  ∀ (i : Instr) (s s' : State), exec i s = .fault (.undefinedInstruction s') →
    s' = s ∧ conditionPasses (fieldCond (encode i)) s = true ∧
    (isUndefinedWord i = true ∨ fpAccess s = some .undefined ∨
      ∃ t, transferOf i = some t ∧
        ((t.regs = 0 ∧ (s.params.cuRegs0 = .undefined ∨ s.params.cuRegs0 = .anyListed)) ∨
          (((t.single = false ∧ 16 < t.regs) ∨ 32 < t.d + t.regs) ∧
            (s.params.cuRange = .undefined ∨ s.params.cuRange = .anyListed))))

/-- The informative algorithm for the access check over CPACR, NSACR, HCPTR, FPEXC, the Security state and the mode (R122).
It decides `FPAccess` under the setting `registers` (log 21). -/
def Obligations.AccessCheckFromRegisters : Prop :=
  ∀ s : State, s.params.fpCheck = .registers →
    let nonSecure := s.security = .nonSecure
    let locked := s.params.el3AArch32 = true ∧ nonSecure ∧ s.nsacr.extractLsb' 10 1 = 0#1
    let cp10 := s.cpacr.extractLsb' 20 2
    let trapped := s.params.el2 = true ∧ nonSecure ∧ (locked ∨ s.hcptr.extractLsb' 10 1 = 1#1)
    let allowed := s.mode = .hyp ∨ (¬locked ∧ (cp10 = 0b11#2 ∨ (cp10 = 0b01#2 ∧ s.mode ≠ .user)))
    let denied := s.mode ≠ .hyp ∧ (locked ∨ cp10 = 0b00#2 ∨ (cp10 = 0b01#2 ∧ s.mode = .user))
    (denied → fpAccess s = some .undefined) ∧
    (allowed → s.fpexc.extractLsb' 30 1 = 0#1 → fpAccess s = some .undefined) ∧
    (allowed → s.fpexc.extractLsb' 30 1 = 1#1 → trapped → s.mode = .hyp → fpAccess s = some .undefined) ∧
    (allowed → s.fpexc.extractLsb' 30 1 = 1#1 → trapped → s.mode ≠ .hyp → fpAccess s = some .hypTrap) ∧
    (allowed → s.fpexc.extractLsb' 30 1 = 1#1 → ¬trapped → fpAccess s = some .enabled) ∧
    (s.mode ≠ .hyp → ¬locked → cp10 = 0b10#2 → s.params.cp10Reserved = .refuse → fpAccess s = none)

/-- A transfer whose byte range crosses the top of the address space is refused (R50). -/
def Obligations.RangeCrossingTheTopIsRefused : Prop :=
  ∀ (i : Instr) (t : Transfer) (s : State), Executes i t s → conditionPasses t.cond s = true → LegalList t s →
    fpAccess s = some .enabled → 2 ^ 32 < (startAddress t s).toNat + 4 * t.imm8.toNat →
    exec i s = .refused .crossesTop

/-- A base register that is not a multiple of 4 gives an alignment fault at the start address; registers outside the list,
the base and `pc` are as before (R46, R51). That the start address is the one reported is the reading of log 14. -/
def Obligations.MisalignedBaseAborts : Prop :=
  ∀ (i : Instr) (t : Transfer) (s : State), Executes i t s → conditionPasses t.cond s = true → LegalList t s →
    fpAccess s = some .enabled → (startAddress t s).toNat + 4 * t.imm8.toNat ≤ 2 ^ 32 →
    (readReg t.n s).toNat % 4 ≠ 0 →
    ∃ u, exec i s = .fault (.dataAbort .alignment (startAddress t s) u) ∧
      u.regs = s.regs ∧ u.pc = s.pc ∧ u.itstate = s.itstate ∧ SameElsewhere s u ∧ SameOutsideList t s u

/-- A Data Abort of a transfer with a legal list reports the address and the kind of a word read that failed, and the
faulted state differs from the state before in the registers of the list only: base and `pc` as before (R51). The values in
the list are free, and the counter they are drawn with is the model's own, log 29. -/
def Obligations.DataAbortChangesTheListOnly : Prop :=
  ∀ (i : Instr) (t : Transfer) (s u : State) (kind : AbortKind) (addr : Word), Executes i t s → LegalList t s →
    exec i s = .fault (.dataAbort kind addr u) →
    (∃ j < wordCount t, addr = wordAddress t s j ∧ memRead addr s = .failed (.abort kind addr)) ∧
    u = { s with dregs := u.dregs, draws := u.draws } ∧ SameOutsideList t s u

/-- When some word of an aligned transfer is not admitted, the step is a Data Abort of a word that `MemAdmit` aborts or a
refusal for a word outside; which of several is open (R48, R52). -/
def Obligations.UnadmittedWordStopsTheTransfer : Prop :=
  ∀ (i : Instr) (t : Transfer) (s : State) (j : Nat), Executes i t s → conditionPasses t.cond s = true →
    LegalList t s → fpAccess s = some .enabled → (startAddress t s).toNat + 4 * t.imm8.toNat ≤ 2 ^ 32 →
    isWordAligned (startAddress t s) = true → j < wordCount t → memAdmit (wordAddress t s j) s ≠ .ok →
    ∃ k < wordCount t,
      (∃ kind u, memAdmit (wordAddress t s k) s = .abort kind ∧
        exec i s = .fault (.dataAbort (.memory kind) (wordAddress t s k) u)) ∨
      (memAdmit (wordAddress t s k) s = .outside ∧ exec i s = .refused (.outsideMemory (wordAddress t s k)))

/-! ### The whole machine -/

/-- Every next state has `pc + 4` (and `ITSTATE` advanced in T32 only), and every fault leaves `pc` (R23, R30). -/
def Obligations.NextMovesOnAndFaultStays : Prop :=
  ∀ (i : Instr) (s : State), (∀ u, exec i s = .next u → MovesOn s u) ∧ ∀ f, exec i s = .fault f → f.state.pc = s.pc

/-- No instruction writes a flag, a control register, FPSCR, the mode, the byte order, the instruction set or a byte of
memory, whether it completes or faults (R36, R39). -/
def Obligations.NothingOutsideTheWriteSetChanges : Prop :=
  ∀ (i : Instr) (s : State), (∀ u, exec i s = .next u → SameElsewhere s u ∧ SameBytes s u) ∧
    ∀ f, exec i s = .fault f → SameElsewhere s f.state ∧ SameBytes s f.state

/-- The only general-purpose register an instruction changes is its base register, and only with writeback (R21). -/
def Obligations.OnlyTheBaseRegisterChanges : Prop :=
  ∀ (i : Instr) (s u : State) (m : BitVec 4),
    exec i s = .next u ∨ (∃ f, exec i s = .fault f ∧ f.state = u) → m ≠ 15#4 → readReg m u ≠ readReg m s →
    ∃ t, transferOf i = some t ∧ t.wback = true ∧ t.n = m

/-- The DIT bit and FPSCR decide nothing: with other values of them the same outcome follows, with those values in it
(R34, R39, R146; logs 24 and 26). R48 makes `MemAdmit` a function of the state; that an open `MemAdmit` does not consult these
two either (`admitView`) is the model's choice (DESIGN CHOICE, log 31), and the statement rests on it. -/
def Obligations.DitAndFpscrDecideNothing : Prop :=
  ∀ (i : Instr) (s : State) (b : Bool) (v : Word),
    exec i { s with dit := b, fpscr := v } = mapStates (fun u => { u with dit := b, fpscr := v }) (exec i s)

/-- A step runs the instruction whose bytes stand at the program counter, in either byte order of data: `exec` moves past it
itself, and `step` adds nothing (R53, R44).
The byte order of the fetch is log 28. -/
def Obligations.StepRunsTheInstructionAtPc : Prop :=
  ∀ (i : Instr) (s : State), WellFormed i → s.iset = i.instrSet → pcAligned s = true → s.pc.toNat + 4 < 2 ^ 32 →
    [readByte s.pc s, readByte (s.pc + 1) s, readByte (s.pc + 2) s, readByte (s.pc + 3) s] = encodeBytes i →
    step s = exec i s

/-- A step whose bytes decode to an instruction is `exec` of it, and one whose bytes decode to none is refused with the
decoder's reason (R53, R77).
That the fetch does not ask `MemAdmit` is log 8. -/
def Obligations.StepRunsTheDecodedInstruction : Prop :=
  ∀ s : State, pcAligned s = true → s.pc.toNat + 4 < 2 ^ 32 →
    (∀ i rest, decode s.iset (fetchBytes s) = .instr i rest → step s = exec i s) ∧
    ∀ e, decode s.iset (fetchBytes s) = .rejected e → step s = .refused (.undecodable e)

/-- A `pc` that is not a multiple of 4 (A32) or 2 (T32) is refused, a step whose `pc + 4` wraps is refused, and the
alignment is preserved by every step (R24).
That the refusals are at the fetch is log 8. -/
def Obligations.PcAlignmentRefusedOrPreserved : Prop :=
  ∀ s : State,
    (s.iset = .a32 → s.pc.toNat % 4 ≠ 0 → step s = .refused .pcMisaligned) ∧
    (s.iset = .t32 → s.pc.toNat % 2 ≠ 0 → step s = .refused .pcMisaligned) ∧
    (s.iset = .a32 → s.pc.toNat % 4 = 0 → 2 ^ 32 ≤ s.pc.toNat + 4 → step s = .refused .pcWraps) ∧
    (s.iset = .t32 → s.pc.toNat % 2 = 0 → 2 ^ 32 ≤ s.pc.toNat + 4 → step s = .refused .pcWraps) ∧
    ∀ u, step s = .next u → pcAligned s = true ∧ pcAligned u = true

/-- Every step keeps the invariant: `pc` aligned for the instruction set, `ITSTATE` legal (so that the UNPREDICTABLE case of
`CurrentCond()` is never reached), memory in canonical form (R24, R29, R30, R35). -/
def Obligations.EveryStepKeepsTheInvariant : Prop :=
  ∀ s u : State, s.Inv → step s = .next u → u.Inv

/-- The state after reset meets the invariant, with CU_REGS0, CU_RANGE and ODD_IMM8 at the defaults of R6. The spec gives no
reset value: everything else of the state is the model's choice, logs 3 to 6. -/
def Obligations.ResetMeetsTheInvariant : Prop :=
  State.reset.Inv ∧ State.reset.itstate = 0#8 ∧ fpAccess State.reset = some .enabled ∧
  State.reset.params.cuRegs0 = .refuse ∧ State.reset.params.cuRange = .refuse ∧ State.reset.params.oddImm8 = .refuse
end

