-- ==== Sys2Proof/Laws/Encoding.lean ====
section
/-!
SUPPORT. Laws of the pattern: each field of a packed pattern is the field packed, and the bytes of a pattern give it back.
-/
namespace Sys2Proof

section Fields
variable (top : BitVec 4) (p u d w : BitVec 1) (rn vd : BitVec 4) (size : BitVec 1) (imm8 : BitVec 8)

@[simp] theorem fieldCond_pack : fieldCond (pack top p u d w rn vd size imm8) = top := by
  unfold fieldCond pack
  ext i hi
  simp only [BitVec.getElem_extractLsb', BitVec.getLsbD_append]
  rw [← BitVec.getLsbD_eq_getElem]
  repeat rw [if_neg (by omega)]
  congr 1; omega

@[simp] theorem fieldOp_pack : fieldOp (pack top p u d w rn vd size imm8) = 0b110#3 := by
  unfold fieldOp pack
  ext i hi
  simp only [BitVec.getElem_extractLsb', BitVec.getLsbD_append]
  rw [← BitVec.getLsbD_eq_getElem]
  repeat rw [if_neg (by omega)]
  rw [if_pos (by omega)]
  congr 1; omega

@[simp] theorem fieldP_pack : fieldP (pack top p u d w rn vd size imm8) = p := by
  unfold fieldP pack
  ext i hi
  simp only [BitVec.getElem_extractLsb', BitVec.getLsbD_append]
  rw [← BitVec.getLsbD_eq_getElem]
  repeat rw [if_neg (by omega)]
  rw [if_pos (by omega)]
  congr 1; omega

@[simp] theorem fieldU_pack : fieldU (pack top p u d w rn vd size imm8) = u := by
  unfold fieldU pack
  ext i hi
  simp only [BitVec.getElem_extractLsb', BitVec.getLsbD_append]
  rw [← BitVec.getLsbD_eq_getElem]
  repeat rw [if_neg (by omega)]
  rw [if_pos (by omega)]
  congr 1; omega

@[simp] theorem fieldD_pack : fieldD (pack top p u d w rn vd size imm8) = d := by
  unfold fieldD pack
  ext i hi
  simp only [BitVec.getElem_extractLsb', BitVec.getLsbD_append]
  rw [← BitVec.getLsbD_eq_getElem]
  repeat rw [if_neg (by omega)]
  rw [if_pos (by omega)]
  congr 1; omega

@[simp] theorem fieldW_pack : fieldW (pack top p u d w rn vd size imm8) = w := by
  unfold fieldW pack
  ext i hi
  simp only [BitVec.getElem_extractLsb', BitVec.getLsbD_append]
  rw [← BitVec.getLsbD_eq_getElem]
  repeat rw [if_neg (by omega)]
  rw [if_pos (by omega)]
  congr 1; omega

@[simp] theorem fieldLoad_pack : fieldLoad (pack top p u d w rn vd size imm8) = 1#1 := by
  unfold fieldLoad pack
  ext i hi
  simp only [BitVec.getElem_extractLsb', BitVec.getLsbD_append]
  rw [← BitVec.getLsbD_eq_getElem]
  repeat rw [if_neg (by omega)]
  rw [if_pos (by omega)]
  congr 1; omega

@[simp] theorem fieldRn_pack : fieldRn (pack top p u d w rn vd size imm8) = rn := by
  unfold fieldRn pack
  ext i hi
  simp only [BitVec.getElem_extractLsb', BitVec.getLsbD_append]
  rw [← BitVec.getLsbD_eq_getElem]
  repeat rw [if_neg (by omega)]
  rw [if_pos (by omega)]
  congr 1; omega

@[simp] theorem fieldVd_pack : fieldVd (pack top p u d w rn vd size imm8) = vd := by
  unfold fieldVd pack
  ext i hi
  simp only [BitVec.getElem_extractLsb', BitVec.getLsbD_append]
  rw [← BitVec.getLsbD_eq_getElem]
  repeat rw [if_neg (by omega)]
  rw [if_pos (by omega)]
  congr 1; omega

@[simp] theorem fieldUnit_pack : fieldUnit (pack top p u d w rn vd size imm8) = 0b101#3 := by
  unfold fieldUnit pack
  ext i hi
  simp only [BitVec.getElem_extractLsb', BitVec.getLsbD_append]
  rw [← BitVec.getLsbD_eq_getElem]
  repeat rw [if_neg (by omega)]
  rw [if_pos (by omega)]
  congr 1; omega

@[simp] theorem fieldSize_pack : fieldSize (pack top p u d w rn vd size imm8) = size := by
  unfold fieldSize pack
  ext i hi
  simp only [BitVec.getElem_extractLsb', BitVec.getLsbD_append]
  rw [← BitVec.getLsbD_eq_getElem]
  repeat rw [if_neg (by omega)]
  rw [if_pos (by omega)]
  congr 1; omega

@[simp] theorem fieldImm8_pack : fieldImm8 (pack top p u d w rn vd size imm8) = imm8 := by
  unfold fieldImm8 pack
  ext i hi
  simp only [BitVec.getElem_extractLsb', BitVec.getLsbD_append]
  rw [← BitVec.getLsbD_eq_getElem]
  rw [if_pos (by omega)]
  congr 1; omega

@[simp] theorem hasFixedBits_pack : hasFixedBits (pack top p u d w rn vd size imm8) = true := by
  simp [hasFixedBits]

end Fields

/-- The four bytes of a pattern, most significant first, are the pattern. -/
theorem patternByte_join (w : Word) :
    patternByte w 3 ++ patternByte w 2 ++ patternByte w 1 ++ patternByte w 0 = w := by
  unfold patternByte
  ext i hi
  simp only [BitVec.getElem_append, BitVec.getElem_extractLsb']
  split
  · rw [← BitVec.getLsbD_eq_getElem]; congr 1; omega
  · split
    · rw [← BitVec.getLsbD_eq_getElem]; congr 1; omega
    · split
      · rw [← BitVec.getLsbD_eq_getElem]; congr 1; omega
      · rw [← BitVec.getLsbD_eq_getElem]; congr 1; omega

/-- A pattern with 1110 in its top bits starts a 32-bit T32 instruction if its bit 27 is 1 (R60). -/
theorem startsWideT32_of_fields (w : Word) (hc : fieldCond w = 0b1110#4) (ho : fieldOp w = 0b110#3) :
    startsWideT32 (patternByte w 3) = true := by
  have h : (patternByte w 3).extractLsb' 3 5 = 0b11101#5 := by
    have : (patternByte w 3).extractLsb' 3 5 = fieldCond w ++ (fieldOp w).extractLsb' 2 1 := by
      unfold patternByte fieldCond fieldOp
      apply BitVec.eq_of_getLsbD_eq
      intro i hi
      rw [BitVec.getLsbD_append]
      simp only [BitVec.getLsbD_extractLsb']
      rcases Nat.lt_or_ge i 1 with h1 | h1
      · obtain rfl : i = 0 := by omega
        simp
      · rw [if_neg (by omega), decide_eq_true hi, decide_eq_true (show 3 + i < 8 by omega),
          decide_eq_true (show i - 1 < 4 by omega)]
        simp only [Bool.true_and]
        congr 1; omega
    rw [this, hc, ho]; rfl
  simp [startsWideT32, h]

/-- Decoding the bytes of an A32 pattern decodes the pattern. -/
theorem decode_patternBytes_a32 (w : Word) (rest : List Byte) :
    decode .a32 (patternBytes .a32 w ++ rest) = decodeA32 w rest := by
  show decodeA32 (patternByte w 3 ++ patternByte w 2 ++ patternByte w 1 ++ patternByte w 0) rest = _
  rw [patternByte_join]

/-- Decoding the bytes of a T32 pattern that starts a 32-bit instruction decodes the pattern. -/
theorem decode_patternBytes_t32 (w : Word) (rest : List Byte) (hc : fieldCond w = 0b1110#4)
    (ho : fieldOp w = 0b110#3) : decode .t32 (patternBytes .t32 w ++ rest) = decodeT32 w rest := by
  simp only [patternBytes, List.cons_append, List.nil_append, decode, startsWideT32_of_fields w hc ho, if_true]
  rw [patternByte_join]

end Sys2Proof
end

