-- ==== Sys2Proof/Laws/State.lean ====
section
/-!
SUPPORT. One lemma per field per update of the state, each true by unfolding, so that no later proof unfolds a record update.
-/
namespace Sys2Proof.Machine

variable (s : State)

/-! ### writeReg -/

@[simp] theorem writeReg_regs (n : BitVec 4) (v : Word) : (writeReg n v s).regs = s.regs.setIfInBounds n.toNat v := rfl
@[simp] theorem writeReg_pc (n : BitVec 4) (v : Word) : (writeReg n v s).pc = s.pc := rfl
@[simp] theorem writeReg_dregs (n : BitVec 4) (v : Word) : (writeReg n v s).dregs = s.dregs := rfl
@[simp] theorem writeReg_iset (n : BitVec 4) (v : Word) : (writeReg n v s).iset = s.iset := rfl
@[simp] theorem writeReg_flagN (n : BitVec 4) (v : Word) : (writeReg n v s).flagN = s.flagN := rfl
@[simp] theorem writeReg_flagZ (n : BitVec 4) (v : Word) : (writeReg n v s).flagZ = s.flagZ := rfl
@[simp] theorem writeReg_flagC (n : BitVec 4) (v : Word) : (writeReg n v s).flagC = s.flagC := rfl
@[simp] theorem writeReg_flagV (n : BitVec 4) (v : Word) : (writeReg n v s).flagV = s.flagV := rfl
@[simp] theorem writeReg_itstate (n : BitVec 4) (v : Word) : (writeReg n v s).itstate = s.itstate := rfl
@[simp] theorem writeReg_e (n : BitVec 4) (v : Word) : (writeReg n v s).e = s.e := rfl
@[simp] theorem writeReg_dit (n : BitVec 4) (v : Word) : (writeReg n v s).dit = s.dit := rfl
@[simp] theorem writeReg_cpacr (n : BitVec 4) (v : Word) : (writeReg n v s).cpacr = s.cpacr := rfl
@[simp] theorem writeReg_nsacr (n : BitVec 4) (v : Word) : (writeReg n v s).nsacr = s.nsacr := rfl
@[simp] theorem writeReg_hcptr (n : BitVec 4) (v : Word) : (writeReg n v s).hcptr = s.hcptr := rfl
@[simp] theorem writeReg_fpexc (n : BitVec 4) (v : Word) : (writeReg n v s).fpexc = s.fpexc := rfl
@[simp] theorem writeReg_fpscr (n : BitVec 4) (v : Word) : (writeReg n v s).fpscr = s.fpscr := rfl
@[simp] theorem writeReg_security (n : BitVec 4) (v : Word) : (writeReg n v s).security = s.security := rfl
@[simp] theorem writeReg_mode (n : BitVec 4) (v : Word) : (writeReg n v s).mode = s.mode := rfl
@[simp] theorem writeReg_mem (n : BitVec 4) (v : Word) : (writeReg n v s).mem = s.mem := rfl
@[simp] theorem writeReg_params (n : BitVec 4) (v : Word) : (writeReg n v s).params = s.params := rfl
@[simp] theorem writeReg_draws (n : BitVec 4) (v : Word) : (writeReg n v s).draws = s.draws := rfl

/-! ### writeD -/

@[simp] theorem writeD_regs (k : Nat) (v : DWord) : (writeD k v s).regs = s.regs := rfl
@[simp] theorem writeD_pc (k : Nat) (v : DWord) : (writeD k v s).pc = s.pc := rfl
@[simp] theorem writeD_dregs (k : Nat) (v : DWord) : (writeD k v s).dregs = s.dregs.setIfInBounds k v := rfl
@[simp] theorem writeD_iset (k : Nat) (v : DWord) : (writeD k v s).iset = s.iset := rfl
@[simp] theorem writeD_flagN (k : Nat) (v : DWord) : (writeD k v s).flagN = s.flagN := rfl
@[simp] theorem writeD_flagZ (k : Nat) (v : DWord) : (writeD k v s).flagZ = s.flagZ := rfl
@[simp] theorem writeD_flagC (k : Nat) (v : DWord) : (writeD k v s).flagC = s.flagC := rfl
@[simp] theorem writeD_flagV (k : Nat) (v : DWord) : (writeD k v s).flagV = s.flagV := rfl
@[simp] theorem writeD_itstate (k : Nat) (v : DWord) : (writeD k v s).itstate = s.itstate := rfl
@[simp] theorem writeD_e (k : Nat) (v : DWord) : (writeD k v s).e = s.e := rfl
@[simp] theorem writeD_dit (k : Nat) (v : DWord) : (writeD k v s).dit = s.dit := rfl
@[simp] theorem writeD_cpacr (k : Nat) (v : DWord) : (writeD k v s).cpacr = s.cpacr := rfl
@[simp] theorem writeD_nsacr (k : Nat) (v : DWord) : (writeD k v s).nsacr = s.nsacr := rfl
@[simp] theorem writeD_hcptr (k : Nat) (v : DWord) : (writeD k v s).hcptr = s.hcptr := rfl
@[simp] theorem writeD_fpexc (k : Nat) (v : DWord) : (writeD k v s).fpexc = s.fpexc := rfl
@[simp] theorem writeD_fpscr (k : Nat) (v : DWord) : (writeD k v s).fpscr = s.fpscr := rfl
@[simp] theorem writeD_security (k : Nat) (v : DWord) : (writeD k v s).security = s.security := rfl
@[simp] theorem writeD_mode (k : Nat) (v : DWord) : (writeD k v s).mode = s.mode := rfl
@[simp] theorem writeD_mem (k : Nat) (v : DWord) : (writeD k v s).mem = s.mem := rfl
@[simp] theorem writeD_params (k : Nat) (v : DWord) : (writeD k v s).params = s.params := rfl
@[simp] theorem writeD_draws (k : Nat) (v : DWord) : (writeD k v s).draws = s.draws := rfl

/-! ### writeS -/

@[simp] theorem writeS_regs (i : Nat) (v : Word) : (writeS i v s).regs = s.regs := rfl
@[simp] theorem writeS_pc (i : Nat) (v : Word) : (writeS i v s).pc = s.pc := rfl
@[simp] theorem writeS_iset (i : Nat) (v : Word) : (writeS i v s).iset = s.iset := rfl
@[simp] theorem writeS_flagN (i : Nat) (v : Word) : (writeS i v s).flagN = s.flagN := rfl
@[simp] theorem writeS_flagZ (i : Nat) (v : Word) : (writeS i v s).flagZ = s.flagZ := rfl
@[simp] theorem writeS_flagC (i : Nat) (v : Word) : (writeS i v s).flagC = s.flagC := rfl
@[simp] theorem writeS_flagV (i : Nat) (v : Word) : (writeS i v s).flagV = s.flagV := rfl
@[simp] theorem writeS_itstate (i : Nat) (v : Word) : (writeS i v s).itstate = s.itstate := rfl
@[simp] theorem writeS_e (i : Nat) (v : Word) : (writeS i v s).e = s.e := rfl
@[simp] theorem writeS_dit (i : Nat) (v : Word) : (writeS i v s).dit = s.dit := rfl
@[simp] theorem writeS_cpacr (i : Nat) (v : Word) : (writeS i v s).cpacr = s.cpacr := rfl
@[simp] theorem writeS_nsacr (i : Nat) (v : Word) : (writeS i v s).nsacr = s.nsacr := rfl
@[simp] theorem writeS_hcptr (i : Nat) (v : Word) : (writeS i v s).hcptr = s.hcptr := rfl
@[simp] theorem writeS_fpexc (i : Nat) (v : Word) : (writeS i v s).fpexc = s.fpexc := rfl
@[simp] theorem writeS_fpscr (i : Nat) (v : Word) : (writeS i v s).fpscr = s.fpscr := rfl
@[simp] theorem writeS_security (i : Nat) (v : Word) : (writeS i v s).security = s.security := rfl
@[simp] theorem writeS_mode (i : Nat) (v : Word) : (writeS i v s).mode = s.mode := rfl
@[simp] theorem writeS_mem (i : Nat) (v : Word) : (writeS i v s).mem = s.mem := rfl
@[simp] theorem writeS_params (i : Nat) (v : Word) : (writeS i v s).params = s.params := rfl
@[simp] theorem writeS_draws (i : Nat) (v : Word) : (writeS i v s).draws = s.draws := rfl

/-! ### placeByte -/

@[simp] theorem placeByte_regs (a : Word) (v : Byte) : (placeByte a v s).regs = s.regs := rfl
@[simp] theorem placeByte_pc (a : Word) (v : Byte) : (placeByte a v s).pc = s.pc := rfl
@[simp] theorem placeByte_dregs (a : Word) (v : Byte) : (placeByte a v s).dregs = s.dregs := rfl
@[simp] theorem placeByte_iset (a : Word) (v : Byte) : (placeByte a v s).iset = s.iset := rfl
@[simp] theorem placeByte_flagN (a : Word) (v : Byte) : (placeByte a v s).flagN = s.flagN := rfl
@[simp] theorem placeByte_flagZ (a : Word) (v : Byte) : (placeByte a v s).flagZ = s.flagZ := rfl
@[simp] theorem placeByte_flagC (a : Word) (v : Byte) : (placeByte a v s).flagC = s.flagC := rfl
@[simp] theorem placeByte_flagV (a : Word) (v : Byte) : (placeByte a v s).flagV = s.flagV := rfl
@[simp] theorem placeByte_itstate (a : Word) (v : Byte) : (placeByte a v s).itstate = s.itstate := rfl
@[simp] theorem placeByte_e (a : Word) (v : Byte) : (placeByte a v s).e = s.e := rfl
@[simp] theorem placeByte_dit (a : Word) (v : Byte) : (placeByte a v s).dit = s.dit := rfl
@[simp] theorem placeByte_cpacr (a : Word) (v : Byte) : (placeByte a v s).cpacr = s.cpacr := rfl
@[simp] theorem placeByte_nsacr (a : Word) (v : Byte) : (placeByte a v s).nsacr = s.nsacr := rfl
@[simp] theorem placeByte_hcptr (a : Word) (v : Byte) : (placeByte a v s).hcptr = s.hcptr := rfl
@[simp] theorem placeByte_fpexc (a : Word) (v : Byte) : (placeByte a v s).fpexc = s.fpexc := rfl
@[simp] theorem placeByte_fpscr (a : Word) (v : Byte) : (placeByte a v s).fpscr = s.fpscr := rfl
@[simp] theorem placeByte_security (a : Word) (v : Byte) : (placeByte a v s).security = s.security := rfl
@[simp] theorem placeByte_mode (a : Word) (v : Byte) : (placeByte a v s).mode = s.mode := rfl
@[simp] theorem placeByte_mem (a : Word) (v : Byte) : (placeByte a v s).mem = Memory.write s.mem a.toNat v := rfl
@[simp] theorem placeByte_params (a : Word) (v : Byte) : (placeByte a v s).params = s.params := rfl
@[simp] theorem placeByte_draws (a : Word) (v : Byte) : (placeByte a v s).draws = s.draws := rfl

/-! ### drawn -/

@[simp] theorem drawn_regs (k : Nat) : (drawn k s).regs = s.regs := rfl
@[simp] theorem drawn_pc (k : Nat) : (drawn k s).pc = s.pc := rfl
@[simp] theorem drawn_dregs (k : Nat) : (drawn k s).dregs = s.dregs := rfl
@[simp] theorem drawn_iset (k : Nat) : (drawn k s).iset = s.iset := rfl
@[simp] theorem drawn_flagN (k : Nat) : (drawn k s).flagN = s.flagN := rfl
@[simp] theorem drawn_flagZ (k : Nat) : (drawn k s).flagZ = s.flagZ := rfl
@[simp] theorem drawn_flagC (k : Nat) : (drawn k s).flagC = s.flagC := rfl
@[simp] theorem drawn_flagV (k : Nat) : (drawn k s).flagV = s.flagV := rfl
@[simp] theorem drawn_itstate (k : Nat) : (drawn k s).itstate = s.itstate := rfl
@[simp] theorem drawn_e (k : Nat) : (drawn k s).e = s.e := rfl
@[simp] theorem drawn_dit (k : Nat) : (drawn k s).dit = s.dit := rfl
@[simp] theorem drawn_cpacr (k : Nat) : (drawn k s).cpacr = s.cpacr := rfl
@[simp] theorem drawn_nsacr (k : Nat) : (drawn k s).nsacr = s.nsacr := rfl
@[simp] theorem drawn_hcptr (k : Nat) : (drawn k s).hcptr = s.hcptr := rfl
@[simp] theorem drawn_fpexc (k : Nat) : (drawn k s).fpexc = s.fpexc := rfl
@[simp] theorem drawn_fpscr (k : Nat) : (drawn k s).fpscr = s.fpscr := rfl
@[simp] theorem drawn_security (k : Nat) : (drawn k s).security = s.security := rfl
@[simp] theorem drawn_mode (k : Nat) : (drawn k s).mode = s.mode := rfl
@[simp] theorem drawn_mem (k : Nat) : (drawn k s).mem = s.mem := rfl
@[simp] theorem drawn_params (k : Nat) : (drawn k s).params = s.params := rfl
@[simp] theorem drawn_draws (k : Nat) : (drawn k s).draws = s.draws + k := rfl

/-! ### advance -/

@[simp] theorem advance_regs : (advance s).regs = s.regs := rfl
@[simp] theorem advance_pc : (advance s).pc = s.pc + 4#32 := rfl
@[simp] theorem advance_dregs : (advance s).dregs = s.dregs := rfl
@[simp] theorem advance_iset : (advance s).iset = s.iset := rfl
@[simp] theorem advance_flagN : (advance s).flagN = s.flagN := rfl
@[simp] theorem advance_flagZ : (advance s).flagZ = s.flagZ := rfl
@[simp] theorem advance_flagC : (advance s).flagC = s.flagC := rfl
@[simp] theorem advance_flagV : (advance s).flagV = s.flagV := rfl
@[simp] theorem advance_e : (advance s).e = s.e := rfl
@[simp] theorem advance_dit : (advance s).dit = s.dit := rfl
@[simp] theorem advance_cpacr : (advance s).cpacr = s.cpacr := rfl
@[simp] theorem advance_nsacr : (advance s).nsacr = s.nsacr := rfl
@[simp] theorem advance_hcptr : (advance s).hcptr = s.hcptr := rfl
@[simp] theorem advance_fpexc : (advance s).fpexc = s.fpexc := rfl
@[simp] theorem advance_fpscr : (advance s).fpscr = s.fpscr := rfl
@[simp] theorem advance_security : (advance s).security = s.security := rfl
@[simp] theorem advance_mode : (advance s).mode = s.mode := rfl
@[simp] theorem advance_mem : (advance s).mem = s.mem := rfl
@[simp] theorem advance_params : (advance s).params = s.params := rfl
@[simp] theorem advance_draws : (advance s).draws = s.draws := rfl

theorem advance_itstate :
    (advance s).itstate = (match s.iset with | .a32 => s.itstate | .t32 => itAdvance s.itstate) := rfl

end Sys2Proof.Machine
end

