-- ==== Sys2Proof/Laws/Registers.lean ====
section
/-!
SUPPORT. Laws of the register files: read after write for `R`, `D` and `S`.
-/
namespace Sys2Proof.Machine

/-- `D[j]` after `D[k] <- v`. -/
theorem readD_writeD (j k : Nat) (v : DWord) (s : State) (hk : k < 32) :
    readD j (writeD k v s) = if j = k then v else readD j s := by
  unfold readD
  rw [writeD_dregs, Vector.getElem?_setIfInBounds]
  by_cases h : j = k
  · subst h; simp [hk]
  · simp [h, Ne.symm h]

/-- A `D` register depends on the `D` file only. -/
theorem readD_congr {s t : State} (h : s.dregs = t.dregs) (k : Nat) : readD k s = readD k t := by
  simp [readD, h]

/-- An `S` view depends on the `D` file only. -/
theorem readS_congr {s t : State} (h : s.dregs = t.dregs) (i : Nat) : readS i s = readS i t := by
  simp [readS, readD_congr h]

theorem halves_low (old : DWord) (v : Word) : (old.extractLsb' 32 32 ++ v).extractLsb' 0 32 = v := by
  rw [BitVec.extractLsb'_append_eq_of_add_le (by omega)]; simp

theorem halves_high (old : DWord) (v : Word) : (v ++ old.extractLsb' 0 32).extractLsb' 32 32 = v := by
  rw [BitVec.extractLsb'_append_eq_of_le (by omega)]; simp

theorem keep_high (old : DWord) (v : Word) :
    (old.extractLsb' 32 32 ++ v).extractLsb' 32 32 = old.extractLsb' 32 32 := by
  rw [BitVec.extractLsb'_append_eq_of_le (by omega)]; simp

theorem keep_low (old : DWord) (v : Word) :
    (v ++ old.extractLsb' 0 32).extractLsb' 0 32 = old.extractLsb' 0 32 := by
  rw [BitVec.extractLsb'_append_eq_of_add_le (by omega)]; simp

/-- `S[j]` after `S[i] <- v` (R27: only the named 32 bits change). -/
theorem readS_writeS (j i : Nat) (v : Word) (s : State) (hi : i < 32) :
    readS j (writeS i v s) = if j = i then v else readS j s := by
  unfold writeS readS
  simp only [readD_writeD _ _ _ _ (show i / 2 < 32 by omega)]
  by_cases hj : j / 2 = i / 2
  · rw [if_pos hj]
    by_cases h : j = i
    · subst h
      rcases Nat.mod_two_eq_zero_or_one j with h0 | h0 <;> simp [h0, halves_low, halves_high]
    · have hne : j % 2 ≠ i % 2 := by omega
      rw [if_neg h, hj]
      rcases Nat.mod_two_eq_zero_or_one i with h0 | h0
      · have h1 : j % 2 = 1 := by omega
        simp [h0, h1, keep_high]
      · have h1 : j % 2 = 0 := by omega
        simp [h0, h1, keep_low]
  · rw [if_neg hj, if_neg (by omega)]

/-- A write of an `S` register leaves the other `D` registers. -/
theorem readD_writeS (k i : Nat) (v : Word) (s : State) (hi : i < 32) (hk : k ≠ i / 2) :
    readD k (writeS i v s) = readD k s := by
  unfold writeS
  rw [readD_writeD _ _ _ _ (by omega), if_neg hk]

/-- `R[m]` after `R[n] <- v`, for `n` below 15. -/
theorem readReg_writeReg (m n : BitVec 4) (v : Word) (s : State) (hn : n ≠ 15#4) :
    readReg m (writeReg n v s) = if m = n then v else readReg m s := by
  have hn' : n.toNat < 15 := by
    have := n.isLt
    have : n.toNat ≠ 15 := fun h => hn (by apply BitVec.eq_of_toNat_eq; simpa using h)
    omega
  unfold readReg
  by_cases hm : m.toNat < 15
  · simp only [hm, dite_true, writeReg_regs, Vector.getElem_setIfInBounds]
    by_cases h : m = n
    · subst h; simp
    · have : n.toNat ≠ m.toNat := fun e => h (BitVec.eq_of_toNat_eq e.symm)
      simp [h, this]
  · have h : m ≠ n := by intro e; subst e; exact hm hn'
    simp [hm, h, readPc]

/-- A write of `R15` changes nothing (R22). -/
theorem writeReg_r15 (v : Word) (s : State) : writeReg 15#4 v s = s := by
  unfold writeReg
  rw [Vector.setIfInBounds_eq_of_size_le (by decide)]

end Sys2Proof.Machine
end

