-- ==== Sys2Proof/Laws/Transfer.lean ====
section
/-!
SUPPORT. What the shared operations of a transfer can do: the list after the loop, the reads, and one inversion lemma per
operation of `Machine/Operands.lean`.
-/
namespace Sys2Proof.Machine

/-! ### The loops write the `D` file only -/

theorem loadSingles_frame (ws : List Word) (d : Nat) (s : State) :
    loadSingles d ws s = { s with dregs := (loadSingles d ws s).dregs } := by
  induction ws generalizing d s with
  | nil => rfl
  | cons w ws ih => rw [loadSingles, ih]; rfl

theorem loadDoubles_frame (d : Nat) (ws : List Word) (s : State) :
    loadDoubles d ws s = { s with dregs := (loadDoubles d ws s).dregs } := by
  induction d, ws, s using loadDoubles.induct with
  | case1 d s w1 w2 ws ih => rw [loadDoubles, ih]; rfl
  | case2 d t ws h => rw [loadDoubles]; exact h

/-- The loop writes the `D` file only. -/
theorem loadList_frame (t : Transfer) (ws : List Word) (s : State) :
    loadList t ws s = { s with dregs := (loadList t ws s).dregs } := by
  unfold loadList
  split
  · exact loadSingles_frame ws t.d s
  · exact loadDoubles_frame t.d ws s

theorem unknownSingles_frame (k d : Nat) (s : State) :
    unknownSingles d k s = { s with dregs := (unknownSingles d k s).dregs, draws := s.draws + k } := by
  induction k generalizing d s with
  | zero => rfl
  | succ k ih =>
    rw [unknownSingles, ih]
    simp only [drawn_regs, drawn_draws, writeS_draws, Nat.add_assoc, Nat.add_comm 1 k]
    rfl

theorem unknownDoubles_frame (k d : Nat) (s : State) :
    unknownDoubles d k s = { s with dregs := (unknownDoubles d k s).dregs, draws := s.draws + k } := by
  induction k generalizing d s with
  | zero => rfl
  | succ k ih =>
    rw [unknownDoubles, ih]
    simp only [drawn_regs, drawn_draws, writeD_draws, Nat.add_assoc, Nat.add_comm 1 k]
    rfl

/-- A Data Abort leaves everything but the `D` file and the draw counter (R51). -/
theorem abortState_frame (t : Transfer) (s : State) :
    abortState t s = { s with dregs := (abortState t s).dregs, draws := s.draws + 1 + t.regs } := by
  unfold abortState
  split
  · rw [unknownSingles_frame]; rfl
  · rw [unknownDoubles_frame]; rfl

/-! ### The registers after the loops -/

/-- `S[j]` after the loop over single words. -/
theorem readS_loadSingles (ws : List Word) (d : Nat) (s : State) (h : d + ws.length ≤ 32) (j : Nat) :
    readS j (loadSingles d ws s) =
      if d ≤ j ∧ j < d + ws.length then ws.getD (j - d) 0#32 else readS j s := by
  induction ws generalizing d s with
  | nil => rw [if_neg (by simp only [List.length_nil]; omega)]; rfl
  | cons w ws ih =>
    simp only [List.length_cons] at h ⊢
    rw [loadSingles, ih _ _ (by omega), readS_writeS _ _ _ _ (by omega)]
    by_cases hj : j = d
    · subst hj
      rw [if_neg (by omega), if_pos rfl, if_pos (by omega)]
      simp
    · by_cases hin : d + 1 ≤ j ∧ j < d + 1 + ws.length
      · rw [if_pos hin, if_pos (by omega), show j - d = (j - (d + 1)) + 1 by omega]
        simp
      · rw [if_neg hin, if_neg hj, if_neg (by omega)]

/-- `D16` to `D31` have no `S` view and are left by the loop over single words (R27). -/
theorem readD_loadSingles (ws : List Word) (d : Nat) (s : State) (h : d + ws.length ≤ 32) (k : Nat) (hk : 16 ≤ k) :
    readD k (loadSingles d ws s) = readD k s := by
  induction ws generalizing d s with
  | nil => rfl
  | cons w ws ih =>
    simp only [List.length_cons] at h
    rw [loadSingles, ih _ _ (by omega), readD_writeS _ _ _ _ (by omega) (by omega)]

@[simp] theorem joinWords_writeD (w1 w2 : Word) (k : Nat) (v : DWord) (s : State) :
    joinWords w1 w2 (writeD k v s) = joinWords w1 w2 s := rfl

/-- `D[j]` after the loop over doublewords. -/
theorem readD_loadDoubles (n d : Nat) (ws : List Word) (s : State) (hl : ws.length = 2 * n) (h : d + n ≤ 32)
    (j : Nat) :
    readD j (loadDoubles d ws s) =
      if d ≤ j ∧ j < d + n then joinWords (ws.getD (2 * (j - d)) 0#32) (ws.getD (2 * (j - d) + 1) 0#32) s
      else readD j s := by
  induction n generalizing d ws s with
  | zero =>
    obtain rfl : ws = [] := List.eq_nil_of_length_eq_zero hl
    rw [if_neg (by omega)]; rfl
  | succ n ih =>
    match ws, hl with
    | w1 :: w2 :: ws, hl =>
      simp only [List.length_cons] at hl
      rw [loadDoubles, ih _ _ _ (by omega) (by omega), readD_writeD _ _ _ _ (by omega), joinWords_writeD]
      by_cases hj : j = d
      · subst hj
        rw [if_neg (by omega), if_pos rfl, if_pos (by omega)]
        simp
      · by_cases hin : d + 1 ≤ j ∧ j < d + 1 + n
        · rw [if_pos hin, if_pos (by omega), show 2 * (j - d) = 2 * (j - (d + 1)) + 2 by omega]
          rfl
        · rw [if_neg hin, if_neg hj, if_neg (by omega)]

/-- `S[j]` after UNKNOWN values into a list: the draws in order of the list, other registers as before. -/
theorem readS_unknownSingles (k d : Nat) (s : State) (h : d + k ≤ 32) (j : Nat) :
    readS j (unknownSingles d k s) =
      if d ≤ j ∧ j < d + k then Config.freeWord (s.draws + (j - d)) else readS j s := by
  induction k generalizing d s with
  | zero => rw [if_neg (by omega)]; rfl
  | succ k ih =>
    rw [unknownSingles, ih _ _ (by omega)]
    have hS : readS j (drawn 1 (writeS d (Config.freeWord s.draws) s)) =
        readS j (writeS d (Config.freeWord s.draws) s) := readS_congr rfl j
    rw [hS, readS_writeS _ _ _ _ (by omega)]
    simp only [drawn_draws, writeS_draws]
    by_cases hj : j = d
    · subst hj
      rw [if_neg (by omega), if_pos rfl, if_pos (by omega)]; simp
    · by_cases hin : d + 1 ≤ j ∧ j < d + 1 + k
      · rw [if_pos hin, if_pos (by omega), show s.draws + 1 + (j - (d + 1)) = s.draws + (j - d) by omega]
      · rw [if_neg hin, if_neg hj, if_neg (by omega)]

/-- `D16` to `D31` are left by UNKNOWN values into an `S` list. -/
theorem readD_unknownSingles (k d : Nat) (s : State) (h : d + k ≤ 32) (j : Nat) (hj : 16 ≤ j) :
    readD j (unknownSingles d k s) = readD j s := by
  induction k generalizing d s with
  | zero => rfl
  | succ k ih =>
    rw [unknownSingles, ih _ _ (by omega), readD_congr (drawn_dregs _ _),
      readD_writeS _ _ _ _ (by omega) (by omega)]

/-- `D[j]` after UNKNOWN values into a list. -/
theorem readD_unknownDoubles (k d : Nat) (s : State) (h : d + k ≤ 32) (j : Nat) :
    readD j (unknownDoubles d k s) =
      if d ≤ j ∧ j < d + k then Config.freeDouble (s.draws + (j - d)) else readD j s := by
  induction k generalizing d s with
  | zero => rw [if_neg (by omega)]; rfl
  | succ k ih =>
    rw [unknownDoubles, ih _ _ (by omega), readD_congr (drawn_dregs _ _), readD_writeD _ _ _ _ (by omega)]
    simp only [drawn_draws, writeD_draws]
    by_cases hj : j = d
    · subst hj
      rw [if_neg (by omega), if_pos rfl, if_pos (by omega)]; simp
    · by_cases hin : d + 1 ≤ j ∧ j < d + 1 + k
      · rw [if_pos hin, if_pos (by omega), show s.draws + 1 + (j - (d + 1)) = s.draws + (j - d) by omega]
      · rw [if_neg hin, if_neg hj, if_neg (by omega)]

/-! ### The word reads -/

@[simp] theorem wordAddresses_length (k : Nat) (a : Word) : (wordAddresses a k).length = k := by
  induction k generalizing a with
  | zero => rfl
  | succ k ih => simp [wordAddresses, ih]

/-- The `i`-th word address is the start address plus `4*i`, modulo 2^32. -/
theorem wordAddresses_getElem (k : Nat) (a : Word) (i : Nat) (h : i < (wordAddresses a k).length) :
    (wordAddresses a k)[i] = a + BitVec.ofNat 32 (4 * i) := by
  induction k generalizing a i with
  | zero => simp at h
  | succ k ih =>
    cases i with
    | zero => simp [wordAddresses]
    | succ i =>
      simp only [wordAddresses, List.getElem_cons_succ]
      rw [ih, BitVec.add_assoc]
      congr 1
      apply BitVec.eq_of_toNat_eq
      simp only [BitVec.toNat_add, BitVec.toNat_ofNat]
      omega

/-- Adding a multiple of 4 keeps the alignment (R46). -/
theorem isWordAligned_add (a : Word) (i : Nat) :
    isWordAligned (a + BitVec.ofNat 32 (4 * i)) = isWordAligned a := by
  have key : ∀ x : Word, isWordAligned x = decide (x.toNat % 4 = 0) := by
    intro x
    unfold isWordAligned
    rw [Bool.eq_iff_iff]
    simp only [beq_iff_eq, decide_eq_true_eq]
    constructor
    · intro h
      have := congrArg BitVec.toNat h
      simpa [BitVec.extractLsb'_toNat] using this
    · intro h
      apply BitVec.eq_of_toNat_eq
      simpa [BitVec.extractLsb'_toNat] using h
  rw [key, key]
  simp only [BitVec.toNat_add, BitVec.toNat_ofNat]
  congr 1
  apply propext
  omega

/-- A word read of an aligned and admitted address gives the bytes there (R42). -/
theorem memRead_ok (a : Word) (s : State) (ha : isWordAligned a = true) (hm : memAdmit a s = .ok) :
    memRead a s = .value (wordAt a s) := by
  simp [memRead, ha, hm]

/-- When every word is aligned and admitted, every read has a value. -/
theorem accesses_ok (t : Transfer) (s : State) (ha : isWordAligned (startAddress t s) = true)
    (hm : ∀ i < wordCount t, memAdmit (wordAddress t s i) s = .ok) :
    accesses t s = (wordAddresses (startAddress t s) (wordCount t)).map (fun a => .value (wordAt a s)) := by
  unfold accesses
  apply List.map_congr_left
  intro a hmem
  obtain ⟨i, hi, rfl⟩ := List.getElem_of_mem hmem
  have hi' : i < wordCount t := by simpa using hi
  rw [wordAddresses_getElem]
  exact memRead_ok _ _ (by rw [isWordAligned_add]; exact ha) (hm i hi')

theorem filterMap_value (f : Word → Word) (l : List Word) :
    (l.map (fun a => Access.value (f a))).filterMap Access.value? = l.map f := by
  induction l with
  | nil => rfl
  | cons a l ih => simp [Access.value?, ih]

theorem filterMap_failure (f : Word → Word) (l : List Word) :
    (l.map (fun a => Access.value (f a))).filterMap Access.failure? = [] := by
  induction l with
  | nil => rfl
  | cons a l ih => simp [Access.failure?]

/-- The words of a transfer, in increasing address order. -/
def transferWords (t : Transfer) (s : State) : List Word :=
  (wordAddresses (startAddress t s) (wordCount t)).map (fun a => wordAt a s)

@[simp] theorem transferWords_length (t : Transfer) (s : State) : (transferWords t s).length = wordCount t := by
  simp [transferWords]

/-- The `i`-th word of a transfer. -/
theorem transferWords_getD (t : Transfer) (s : State) (i : Nat) (h : i < wordCount t) :
    (transferWords t s).getD i 0#32 = wordAt (wordAddress t s i) s := by
  have hl : i < (transferWords t s).length := by simpa using h
  rw [List.getD_eq_getElem?_getD, List.getElem?_eq_getElem hl]
  simp only [transferWords, List.getElem_map, Option.getD_some]
  rw [wordAddresses_getElem]; rfl

/-- A transfer in range whose words are aligned and admitted loads them, writes the base, and moves on. -/
theorem transfer_ok (t : Transfer) (s : State) (hr : (startAddress t s).toNat + 4 * t.imm8.toNat ≤ 2 ^ 32)
    (ha : isWordAligned (startAddress t s) = true)
    (hm : ∀ i < wordCount t, memAdmit (wordAddress t s i) s = .ok) :
    transfer t s = .next (advance (writeBase t s (loadList t (transferWords t s) s))) := by
  unfold transfer
  have : crossesTop t s = false := by simp [crossesTop]; omega
  rw [this, accesses_ok t s ha hm, filterMap_value, filterMap_failure]
  rfl

/-! ### Inversion: what each operation can answer -/

/-- Everything a transfer past the access check can answer (R90 lines 4 to 15, R50, R51, R52). -/
theorem transfer_cases (t : Transfer) (s : State) :
    transfer t s = .refused .crossesTop ∨
    (∃ kind addr, transfer t s = .fault (.dataAbort kind addr (abortState t s))) ∨
    (∃ addr, transfer t s = .refused (.outsideMemory addr)) ∨
    (∃ ws, transfer t s = .next (advance (writeBase t s (loadList t ws s)))) := by
  unfold transfer
  split
  · exact .inl rfl
  · split
    · rename_i f fs _
      cases h : reportedFailure t f fs s with
      | abort kind addr => exact .inr (.inl ⟨kind, addr, rfl⟩)
      | outside addr => exact .inr (.inr (.inl ⟨addr, rfl⟩))
    · exact .inr (.inr (.inr ⟨_, rfl⟩))

/-- The condition decides between the body, a skip and a refusal (R29, R91). -/
theorem conditional_cases (c : BitVec 4) (s : State) (body : Result) :
    (conditionPasses c s = true ∧ conditional c s body = body) ∨
    (conditionFails c s = true ∧ conditional c s body = .next (advance s)) ∨
    conditional c s body = .refused .unpredictableItState ∨
    conditional c s body = .refused .condition1111 := by
  unfold conditional conditionPasses conditionFails
  cases currentCond c s with
  | none => exact .inr (.inr (.inl rfl))
  | some cond =>
    by_cases h15 : cond = 0b1111#4
    · simp [h15]
    · cases hc : conditionHolds cond s <;> simp [h15, hc]

/-- A passing condition runs the body. -/
theorem conditional_passes {c : BitVec 4} {s : State} (body : Result) (h : conditionPasses c s = true) :
    conditional c s body = body := by
  unfold conditional
  unfold conditionPasses at h
  cases hc : currentCond c s with
  | none => simp [hc] at h
  | some cond => simp_all

/-- A failing condition skips. -/
theorem conditional_fails {c : BitVec 4} {s : State} (body : Result) (h : conditionFails c s = true) :
    conditional c s body = .next (advance s) := by
  unfold conditional
  unfold conditionFails at h
  cases hc : currentCond c s with
  | none => simp [hc] at h
  | some cond => simp_all

/-- A transfer whose decode is legal goes on to the access check. -/
theorem unpredictableChecks_legal {t : Transfer} {s : State} (h : LegalList t s) :
    unpredictableChecks t s = checkedTransfer t s := by
  obtain ⟨hpc, h0, h16, hfit, hodd⟩ := h
  have e1 : pcBaseUnpredictable t s = false := by
    unfold pcBaseUnpredictable
    by_cases hn : t.n = 15#4
    · obtain ⟨hw, hi⟩ := hpc hn; simp [hw, hi]
    · simp [hn]
  have e2 : oddListUnpredictable t = false := by
    unfold oddListUnpredictable
    cases hs : t.single <;> cases ho : isOdd t.imm8 <;> simp
    exact hodd hs ho
  have e3 : rangeUnpredictable t = false := by
    unfold rangeUnpredictable
    cases hs : t.single <;> simp [hfit]
    exact h16 hs
  simp [unpredictableChecks, e1, e2, e3, Nat.ne_of_gt h0]

/-- A transfer that runs normally: the words loaded, the base written, the next instruction follows. -/
theorem execTransfer_ok {t : Transfer} {s : State} (h : RunsNormally t s) :
    execTransfer t s = .next (advance (writeBase t s (loadList t (transferWords t s) s))) := by
  unfold execTransfer
  rw [conditional_passes _ h.passes, unpredictableChecks_legal h.legal]
  unfold checkedTransfer
  rw [h.enabled]
  exact transfer_ok t s h.inRange h.aligned h.admitted

/-- The access check goes on, faults with the state unchanged, or is refused (R121, R122). -/
theorem checkedTransfer_cases (t : Transfer) (s : State) :
    checkedTransfer t s = .refused .reservedCp10 ∨ checkedTransfer t s = .fault (.undefinedInstruction s) ∨
    checkedTransfer t s = .fault (.hypTrap s) ∨ checkedTransfer t s = transfer t s := by
  unfold checkedTransfer
  split <;> simp [takeException]

/-- What the registers-UNKNOWN behaviour can answer (R105). -/
theorem unknownRangeCase_cases (t : Transfer) (s : State) :
    (∃ kind addr, unknownRangeCase t s = .fault (.dataAbort kind addr (unknownRange t (drawn 2 s)))) ∨
    unknownRangeCase t s = .next (advance (unknownRange t (drawn 2 s))) := by
  unfold unknownRangeCase
  split
  · exact .inl ⟨_, _, rfl⟩
  · exact .inr rfl

/-- What a transfer with an empty list can answer, under every setting of CU_REGS0 (R104). -/
theorem noRegsCase_cases (t : Transfer) (s : State) :
    noRegsCase t s = .refused .unpredictableNoRegs ∨ noRegsCase t s = .fault (.undefinedInstruction s) ∨
    (∃ j, noRegsCase t s = .next (advance (drawn j s))) ∨ noRegsCase t s = checkedTransfer t s ∨
    noRegsCase t s = afterChoice (checkedTransfer t s) := by
  unfold noRegsCase
  cases s.params.cuRegs0 with
  | undefined => exact .inr (.inl rfl)
  | nop => exact .inr (.inr (.inl ⟨0, rfl⟩))
  | noRegs => exact .inr (.inr (.inr (.inl rfl)))
  | refuse => exact .inl rfl
  | anyListed =>
    dsimp only
    split
    · exact .inr (.inl rfl)
    · split
      · exact .inr (.inr (.inl ⟨1, rfl⟩))
      · exact .inr (.inr (.inr (.inr rfl)))

/-- What a transfer whose list is too long can answer, under every setting of CU_RANGE (R105). -/
theorem rangeCase_cases (t : Transfer) (s : State) :
    rangeCase t s = .refused .unpredictableRange ∨ rangeCase t s = .fault (.undefinedInstruction s) ∨
    (∃ j, rangeCase t s = .next (advance (drawn j s))) ∨ ∃ j, rangeCase t s = unknownRangeCase t (drawn j s) := by
  unfold rangeCase
  cases s.params.cuRange with
  | undefined => exact .inr (.inl rfl)
  | nop => exact .inr (.inr (.inl ⟨0, rfl⟩))
  | unknownRegs => exact .inr (.inr (.inr ⟨0, rfl⟩))
  | refuse => exact .inl rfl
  | anyListed =>
    dsimp only
    split
    · exact .inr (.inl rfl)
    · split
      · exact .inr (.inr (.inl ⟨1, rfl⟩))
      · exact .inr (.inr (.inr ⟨1, rfl⟩))

/-- Where the decode of a transfer leads (R74, R90 lines 2c to 2f). -/
theorem unpredictableChecks_cases (t : Transfer) (s : State) :
    (pcBaseUnpredictable t s = true ∧ unpredictableChecks t s = .refused .unpredictablePcBase) ∨
    (pcBaseUnpredictable t s = false ∧
      (unpredictableChecks t s = .refused .unpredictableOddList ∨ unpredictableChecks t s = noRegsCase t s ∨
        unpredictableChecks t s = rangeCase t s ∨ unpredictableChecks t s = checkedTransfer t s)) := by
  unfold unpredictableChecks
  cases h : pcBaseUnpredictable t s with
  | true => exact .inl ⟨rfl, rfl⟩
  | false =>
    refine .inr ⟨rfl, ?_⟩
    simp only [Bool.false_eq_true, if_false]
    split
    · exact .inl rfl
    · split
      · exact .inr (.inl rfl)
      · split
        · exact .inr (.inr (.inl rfl))
        · exact .inr (.inr (.inr rfl))

end Sys2Proof.Machine
end

