-- ==== Sys2Proof/Laws/Exec.lean ====
section
/-!
SUPPORT. Laws of whole instructions: which shared operation `exec` runs, what a completed transfer leaves in the registers,
and how the machine moves on.
-/
namespace Sys2Proof.Machine

/-! ### Numbers -/

/-- The transfer size is four bytes per unit of `imm8` (R66). -/
theorem transferSize_eq (imm8 : BitVec 8) : transferSize imm8 = BitVec.ofNat 32 (4 * imm8.toNat) := by
  revert imm8; decide

/-- A register number that is not 15 is below 15. -/
theorem toNat_lt_of_ne_pc {m : BitVec 4} (h : m ≠ 15#4) : m.toNat < 15 := by
  have hlt := m.isLt
  have : m.toNat ≠ 15 := fun e => h (by apply BitVec.eq_of_toNat_eq; simpa using e)
  omega

/-- `R0` to `R14` depend on the register file only. -/
theorem readReg_congr {s u : State} (h : u.regs = s.regs) {m : BitVec 4} (hm : m ≠ 15#4) :
    readReg m u = readReg m s := by
  simp [readReg, toNat_lt_of_ne_pc hm, h]

/-! ### Which operation runs -/

/-- A word that is not redirected is a transfer or an UNDEFINED word. -/
theorem transfer_or_undefined {i : Instr} {s : State} (h : isRedirected i s = false) :
    (∃ t, transferOf i = some t) ∨ isUndefinedWord i = true := by
  cases i <;> simp_all [isRedirected, transferOf, isUndefinedWord]

/-- The condition field of a transfer is bits 31:28 of its pattern. -/
theorem fieldCond_encode {i : Instr} {t : Transfer} (h : transferOf i = some t) :
    fieldCond (encode i) = t.cond := by
  cases i <;> simp only [transferOf, Option.some.injEq, reduceCtorEq] at h <;> subst h <;>
    simp [encode, doubleTransfer, singleTransfer]

/-- A word with the constants `t` that is not redirected runs the Operation with them (R90). -/
theorem exec_of_executes {i : Instr} {t : Transfer} {s : State} (h : Executes i t s) :
    exec i s = execTransfer t s := by
  obtain ⟨ht, hr⟩ := h
  cases i <;> simp only [transferOf, Option.some.injEq, reduceCtorEq] at ht <;> subst ht <;> try rfl
  all_goals
    simp only [isRedirected, beq_eq_false_iff_ne, ne_eq] at hr
    simp only [exec, execFldmxA1Ia, execFldmxA1Db, execFldmxT1Ia, execFldmxT1Db, execOdd]
    split
    · exact absurd ‹_› hr
    · rfl

/-- A word with P = U and W = 1 runs the UNDEFINED operation (R71). -/
theorem exec_of_undefinedWord {i : Instr} (s : State) (h : isUndefinedWord i = true) :
    exec i s = execUndefined (fieldCond (encode i)) s := by
  cases i <;> simp only [isUndefinedWord, Bool.false_eq_true] at h <;> simp only [encode, fieldCond_pack] <;> rfl

/-- A redirected word is refused. -/
theorem exec_of_redirected {i : Instr} {s : State} (h : isRedirected i s = true) : ∃ r, exec i s = .refused r := by
  cases i <;> simp only [isRedirected, Bool.false_eq_true, beq_iff_eq] at h <;>
    simp only [exec, execFldmxA1Ia, execFldmxA1Db, execFldmxT1Ia, execFldmxT1Db, execOdd, execSeeRelatedA32,
      execSeeRelatedT32, execSeeVldrA32, execSeeVldrT32] <;> (try rw [h]) <;> exact ⟨_, rfl⟩

/-- The PC check passes when its condition does. -/
theorem pcBaseUnpredictable_false {t : Transfer} {s : State} (h : t.n = 15#4 → t.wback = false ∧ s.iset = .a32) :
    pcBaseUnpredictable t s = false := by
  unfold pcBaseUnpredictable
  by_cases hn : t.n = 15#4
  · simp [hn, h hn]
  · simp [hn]

/-! ### Moving on -/

/-- The skip as one record update (R23, R30). -/
theorem advance_eq (s : State) :
    advance s = { s with
      pc := s.pc + 4#32, itstate := if s.iset = .t32 then itAdvance s.itstate else s.itstate } := by
  unfold advance
  cases h : s.iset <;> simp

/-- A state that agrees in `pc`, `ITSTATE` and `iset` moves on as the instruction's own state does. -/
theorem movesOn_advance {s x : State} (hp : x.pc = s.pc) (ht : x.itstate = s.itstate) (hi : x.iset = s.iset) :
    MovesOn s (advance x) := by
  unfold MovesOn
  simp only [advance_pc, advance_itstate, hp, ht, hi]
  cases s.iset <;> simp

/-! ### After a transfer -/

/-- The writeback leaves the `D` file. -/
theorem writeBase_dregs (t : Transfer) (b s : State) : (writeBase t b s).dregs = s.dregs := by
  unfold writeBase; split <;> rfl

/-- The writeback writes the base register and no other (R90 line 13). -/
theorem baseBecomes_writeBase {t : Transfer} {s x : State} (hx : x.regs = s.regs)
    (hp : t.n = 15#4 → t.wback = false) :
    BaseBecomes t.wback t.n (writebackValue t s) s (advance (writeBase t s x)) := by
  intro m hm
  rw [readReg_congr (advance_regs _) hm]
  unfold writeBase
  cases hw : t.wback with
  | false => simpa using readReg_congr hx hm
  | true =>
    have hn : t.n ≠ 15#4 := fun h => by simp [hp h] at hw
    simp only [if_true, readReg_writeReg m t.n _ x hn, true_and]
    rw [readReg_congr hx hm]

/-- The loop over doublewords loads the list (R92). -/
theorem loadsDoubles_loadList {t : Transfer} {s : State} (hs : t.single = false) (hf : t.d + t.regs ≤ 32) :
    LoadsDoubles t.d t.regs (startAddress t s) s (loadList t (transferWords t s) s) := by
  intro k _
  have hw : wordCount t = 2 * t.regs := by simp [wordCount, hs]
  simp only [loadList, hs, Bool.false_eq_true, if_false]
  rw [readD_loadDoubles t.regs t.d _ _ (by simp [hw]) hf]
  split
  · rw [transferWords_getD _ _ _ (by omega), transferWords_getD _ _ _ (by omega)]
    unfold doubleAt wordAddress
    congr 2
    · congr 2; omega
    · rw [BitVec.add_assoc]; congr 1
      apply BitVec.eq_of_toNat_eq; simp; omega
  · rfl

/-- The loop over single words loads the list (R94). -/
theorem loadsSingles_loadList {t : Transfer} {s : State} (hs : t.single = true) (hf : t.d + t.regs ≤ 32) :
    LoadsSingles t.d t.regs (startAddress t s) s (loadList t (transferWords t s) s) := by
  have hw : wordCount t = t.regs := by simp [wordCount, hs]
  simp only [loadList, hs, if_true]
  refine ⟨fun k _ => ?_, fun k _ h16 => readD_loadSingles _ _ _ (by simp [hw, hf]) _ h16⟩
  rw [readS_loadSingles _ _ _ (by simp [hw, hf])]
  simp only [transferWords_length, hw]
  split
  · rw [transferWords_getD _ _ _ (by omega)]; rfl
  · rfl

/-- A transfer that runs normally: the `D` file after the loop, the base, and everything else. -/
theorem execTransfer_completes {t : Transfer} {s : State} (h : RunsNormally t s) :
    ∃ u, execTransfer t s = .next u ∧ u.dregs = (loadList t (transferWords t s) s).dregs ∧
      BaseBecomes t.wback t.n (writebackValue t s) s u ∧ MovesOn s u ∧ SameElsewhere s u ∧ SameBytes s u ∧
      u.draws = s.draws := by
  refine ⟨_, execTransfer_ok h, by rw [advance_dregs, writeBase_dregs], ?_, ?_⟩
  · exact baseBecomes_writeBase (by rw [loadList_frame]) (fun hn => (h.legal.pcBase hn).1)
  · rw [loadList_frame]
    unfold writeBase
    split <;> exact ⟨movesOn_advance rfl rfl rfl, by constructor <;> rfl, fun _ => rfl, rfl⟩

end Sys2Proof.Machine
end

