-- ==== Sys2Proof/Laws/Memory.lean ====
section
/-!
SUPPORT. Laws of memory: read after write, and that every memory operation keeps the canonical form.
-/
namespace Sys2Proof.Machine

/-- A read after a write gives the value written at its address and the old byte elsewhere. -/
theorem Memory.read_write (m : Memory) (hm : Memory.wf m = true) (a : Nat) (v : Byte) (b : Nat) :
    Memory.read (Memory.write m a v) b = if b = a then v else Memory.read m b := by
  induction m with
  | nil =>
    by_cases hv : v = unlistedByte <;> by_cases hb : b = a <;>
      simp_all [Memory.write, Memory.read, eq_comm (a := a)]
  | cons c rest ih =>
    obtain ⟨k, x⟩ := c
    simp only [Memory.wf, Bool.and_eq_true, List.all_eq_true, decide_eq_true_eq] at hm
    obtain ⟨⟨⟨hk, hx⟩, hall⟩, hrest⟩ := hm
    have above : ∀ c' : Nat, c' ≤ k → Memory.read rest c' = unlistedByte := by
      intro c' hc'
      clear ih hrest hx
      induction rest with
      | nil => rfl
      | cons c2 r2 ih2 =>
        have h1 := hall c2 (List.mem_cons_self)
        simp only [Memory.read]
        rw [if_neg (by omega)]
        exact ih2 (fun z hz => hall z (List.mem_cons_of_mem _ hz))
    simp only [Memory.write]
    split
    · split
      · by_cases hb : b = a
        · subst hb; simp only [Memory.read, if_true]
          rw [if_neg (by omega), above b (by omega)]; simp_all
        · simp [hb]
      · by_cases hb : b = a
        · simp [Memory.read, hb]
        · simp only [Memory.read, hb, if_false]
          rw [if_neg (fun h => hb h.symm)]
    · split
      · rename_i hak
        subst hak
        split
        · by_cases hb : b = a
          · subst hb; simp only [if_true]; rw [above b (Nat.le_refl _)]; simp_all
          · simp only [hb, if_false, Memory.read]
            rw [if_neg (fun h => hb h.symm)]
        · by_cases hb : b = a
          · simp [Memory.read, hb]
          · simp only [Memory.read, hb, if_false]
            rw [if_neg (fun h => hb h.symm), if_neg (fun h => hb h.symm)]
      · rename_i h1 h2
        simp only [Memory.read]
        by_cases hkb : k = b
        · subst hkb; simp [Ne.symm h2]
        · simp only [hkb, if_false]; exact ih hrest

/-- The addresses of a written memory are those of the old one and the address written. -/
theorem Memory.all_write (p : Nat → Bool) (m : Memory) (a : Nat) (v : Byte)
    (hm : m.all (fun c => p c.1) = true) (ha : p a = true) :
    (Memory.write m a v).all (fun c => p c.1) = true := by
  induction m with
  | nil => simp only [Memory.write]; split <;> simp [ha]
  | cons c rest ih =>
    simp only [List.all_cons, Bool.and_eq_true] at hm
    simp only [Memory.write]
    split
    · split <;> simp only [List.all_cons, hm.1, hm.2, ha, Bool.and_self]
    · split
      · split
        · exact hm.2
        · simp [ha] ; simpa using hm.2
      · simp only [List.all_cons, Bool.and_eq_true]
        exact ⟨hm.1, ih hm.2⟩

/-- A write keeps the canonical form. -/
theorem Memory.wf_write (m : Memory) (a : Nat) (v : Byte) (hm : Memory.wf m = true) (ha : a < 2 ^ 32) :
    Memory.wf (Memory.write m a v) = true := by
  induction m with
  | nil => simp only [Memory.write]; split <;> simp_all [Memory.wf]
  | cons c rest ih =>
    obtain ⟨k, x⟩ := c
    have hm' := hm
    simp only [Memory.wf, Bool.and_eq_true, decide_eq_true_eq] at hm'
    obtain ⟨⟨⟨hk, hx⟩, hall⟩, hrest⟩ := hm'
    simp only [Memory.write]
    split
    · rename_i hak
      split
      · exact hm
      · rename_i hv
        simp only [Memory.wf, Bool.and_eq_true, decide_eq_true_eq, List.all_cons]
        refine ⟨⟨⟨ha, by simpa using hv⟩, hak, ?_⟩, ⟨⟨hk, hx⟩, hall⟩, hrest⟩
        simp only [List.all_eq_true, decide_eq_true_eq] at hall ⊢
        intro c hc; have := hall c hc; omega
    · split
      · rename_i hak
        subst hak
        split
        · exact hrest
        · rename_i hv
          simp only [Memory.wf, Bool.and_eq_true, decide_eq_true_eq]
          exact ⟨⟨⟨ha, by simpa using hv⟩, hall⟩, hrest⟩
      · rename_i h1 h2
        simp only [Memory.wf, Bool.and_eq_true, decide_eq_true_eq]
        refine ⟨⟨⟨hk, hx⟩, ?_⟩, ih hrest⟩
        exact Memory.all_write (fun z => decide (k < z)) rest a v hall (by simp; omega)

/-- Placing a byte keeps the canonical form of the state's memory. -/
theorem placeByte_wf (a : Word) (v : Byte) (s : State) (h : Memory.wf s.mem = true) :
    Memory.wf (placeByte a v s).mem = true :=
  Memory.wf_write _ _ _ h a.isLt

/-- Placing bytes keeps the canonical form of the state's memory. -/
theorem placeBytes_wf (bs : List Byte) (a : Word) (s : State) (h : Memory.wf s.mem = true) :
    Memory.wf (placeBytes a bs s).mem = true := by
  induction bs generalizing a s with
  | nil => exact h
  | cons b rest ih => exact ih _ _ (placeByte_wf a b s h)

/-! ### What `MemAdmit` answers (R48) -/

/-- A map of regions answers. -/
theorem memAdmit_regions {s : State} {map : List Region} (h : s.params.memAdmission = .regions map) (a : Word) :
    memAdmit a s = regionsAnswer map a s := by
  simp [memAdmit, h]

@[simp] theorem regionsAnswer_nil (a : Word) (s : State) : regionsAnswer [] a s = .ok := rfl

@[simp] theorem regionsAnswer_cons (r : Region) (rest : List Region) (a : Word) (s : State) :
    regionsAnswer (r :: rest) a s = if regionApplies r a s then r.answer else regionsAnswer rest a s := rfl

/-- An open `MemAdmit` is the free function of the state and the address. -/
theorem memAdmit_anyFunction {s : State} (h : s.params.memAdmission = .anyFunction) (a : Word) :
    memAdmit a s = Config.freeAdmit (admitView s) a := by
  simp [memAdmit, h]

/-- DIT and FPSCR decide no answer (R34, R39). -/
theorem memAdmit_dit_fpscr (a : Word) (s : State) (b : Bool) (v : Word) :
    memAdmit a { s with dit := b, fpscr := v } = memAdmit a s := by
  have regions : ∀ map, regionsAnswer map a { s with dit := b, fpscr := v } = regionsAnswer map a s := by
    intro map
    induction map with
    | nil => rfl
    | cons r rest ih => simp only [regionsAnswer_cons, ih]; rfl
  unfold memAdmit
  dsimp only
  split
  · exact regions _
  · rfl

/-- The memory after reset is in canonical form. -/
theorem reset_mem_wf : Memory.wf State.reset.mem = true := rfl

end Sys2Proof.Machine
end

