-- ==== Sys2Proof/Laws/PerInstr.lean ====
section
/-!
SUPPORT. One lemma per instruction about it as syntax: the pattern of a well-formed instruction matches its row of
spec/opcode_table.json, under the row's mask (30_encoding.md R76).
-/
namespace Sys2Proof.Laws

/-- The mask of an instruction's row (R76). -/
def TableRow.mask : Instr → Word
  | .vldmA1 .. => 0x0F900F01#32
  | .vldmdbA1 .. => 0x0FB00F01#32
  | .vldmA2 .. => 0x0F900F00#32
  | .vldmdbA2 .. => 0x0FB00F00#32
  | .vldmT1 .. => 0xFF900F01#32
  | .vldmdbT1 .. => 0xFFB00F01#32
  | .vldmT2 .. => 0xFF900F00#32
  | .vldmdbT2 .. => 0xFFB00F00#32
  | .vpopA1 .. => 0x0FBF0F01#32
  | .vpopA2 .. => 0x0FBF0F00#32
  | .vpopT1 .. => 0xFFBF0F01#32
  | .vpopT2 .. => 0xFFBF0F00#32
  | .undefPuw001A32 .. => 0x0FB00E00#32
  | .undefPuw111A32 .. => 0x0FB00E00#32
  | .undefPuw001T32 .. => 0xFFB00E00#32
  | .undefPuw111T32 .. => 0xFFB00E00#32
  | .seeRelatedA32 .. => 0x0FB00E00#32
  | .seeRelatedT32 .. => 0xFFB00E00#32
  | .seeVldrA32 .. => 0x0F300E00#32
  | .seeVldrT32 .. => 0xFF300E00#32
  | .fldmxA1Ia .. => 0x0F900F01#32
  | .fldmxA1Db .. => 0x0FB00F01#32
  | .fldmxT1Ia .. => 0xFF900F01#32
  | .fldmxT1Db .. => 0xFFB00F01#32

/-- The match value of an instruction's row (R76). -/
def TableRow.pattern : Instr → Word
  | .vldmA1 .. => 0x0C900B00#32
  | .vldmdbA1 .. => 0x0D300B00#32
  | .vldmA2 .. => 0x0C900A00#32
  | .vldmdbA2 .. => 0x0D300A00#32
  | .vldmT1 .. => 0xEC900B00#32
  | .vldmdbT1 .. => 0xED300B00#32
  | .vldmT2 .. => 0xEC900A00#32
  | .vldmdbT2 .. => 0xED300A00#32
  | .vpopA1 .. => 0x0CBD0B00#32
  | .vpopA2 .. => 0x0CBD0A00#32
  | .vpopT1 .. => 0xECBD0B00#32
  | .vpopT2 .. => 0xECBD0A00#32
  | .undefPuw001A32 .. => 0x0C300A00#32
  | .undefPuw111A32 .. => 0x0DB00A00#32
  | .undefPuw001T32 .. => 0xEC300A00#32
  | .undefPuw111T32 .. => 0xEDB00A00#32
  | .seeRelatedA32 .. => 0x0C100A00#32
  | .seeRelatedT32 .. => 0xEC100A00#32
  | .seeVldrA32 .. => 0x0D100A00#32
  | .seeVldrT32 .. => 0xED100A00#32
  | .fldmxA1Ia .. => 0x0C900B01#32
  | .fldmxA1Db .. => 0x0D300B01#32
  | .fldmxT1Ia .. => 0xEC900B01#32
  | .fldmxT1Db .. => 0xED300B01#32

/-- A well-formed instruction's pattern matches its row, and in A32 its condition is not 1111 (R76). -/
def TableRow.Statement (i : Instr) : Prop :=
  WellFormed i →
    encode i &&& TableRow.mask i = TableRow.pattern i ∧ (i.instrSet = .a32 → fieldCond (encode i) ≠ 0b1111#4)

/-- A pattern from all its fields, the fixed ones among them. -/
def packAll (top : BitVec 4) (op : BitVec 3) (p u d w load : BitVec 1) (rn vd : BitVec 4) (unit : BitVec 3)
    (size : BitVec 1) (imm7 : BitVec 7) (imm0 : BitVec 1) : Word :=
  top ++ op ++ p ++ u ++ d ++ w ++ load ++ rn ++ vd ++ unit ++ size ++ imm7 ++ imm0

theorem append_and {m n : Nat} (a b : BitVec m) (x y : BitVec n) : (a ++ x) &&& (b ++ y) = (a &&& b) ++ (x &&& y) := by
  apply BitVec.eq_of_getLsbD_eq
  intro i hi
  simp only [BitVec.getLsbD_and, BitVec.getLsbD_append]
  split <;> rfl

/-- The bitwise AND of two patterns, field by field. -/
theorem packAll_and (t t' : BitVec 4) (o o' : BitVec 3) (p p' u u' d d' w w' l l' : BitVec 1) (r r' v v' : BitVec 4)
    (n n' : BitVec 3) (z z' : BitVec 1) (h h' : BitVec 7) (b b' : BitVec 1) :
    packAll t o p u d w l r v n z h b &&& packAll t' o' p' u' d' w' l' r' v' n' z' h' b' =
      packAll (t &&& t') (o &&& o') (p &&& p') (u &&& u') (d &&& d') (w &&& w') (l &&& l') (r &&& r') (v &&& v')
        (n &&& n') (z &&& z') (h &&& h') (b &&& b') := by
  unfold packAll
  repeat erw [append_and]

/-- A pattern with `imm8` split at bit 0. -/
theorem pack_eq (top : BitVec 4) (p u d w : BitVec 1) (rn vd : BitVec 4) (size : BitVec 1) (imm8 : BitVec 8) :
    pack top p u d w rn vd size imm8 =
      packAll top 0b110#3 p u d w 1#1 rn vd 0b101#3 size (imm8.extractLsb' 1 7) (imm8.extractLsb' 0 1) := by
  apply BitVec.eq_of_getLsbD_eq
  intro i hi
  unfold pack packAll
  simp only [BitVec.getLsbD_append, BitVec.getLsbD_extractLsb']
  rcases Nat.lt_or_ge i 8 with h8 | h8
  · rw [if_pos h8]
    rcases Nat.lt_or_ge i 1 with h1 | h1
    · obtain rfl : i = 0 := by omega
      simp
    · rw [if_neg (by omega), if_pos (by omega), decide_eq_true (show i - 1 < 7 by omega)]
      simp only [Bool.true_and]
      congr 1; omega
  · have e1 : ¬ i < 8 := by omega
    have e2 : ¬ i < 1 := by omega
    have e3 : ¬ i - 1 < 7 := by omega
    simp only [e1, e2, e3, if_false, Nat.sub_sub, Nat.reduceAdd]

/-- The row VLDM_A1. -/
theorem TableRow.vldmA1 (cond : BitVec 4) (dBit wBit : BitVec 1) (rn vd : BitVec 4) (imm8 : BitVec 8) :
    TableRow.Statement (.vldmA1 cond dBit wBit rn vd imm8) := by
  intro hwf
  simp only [WellFormed, WellFormed.check, WellFormed.condition, WellFormed.evenImm,
    Bool.and_eq_true, beq_iff_eq, bne_iff_ne] at hwf
  have hmask : 0x0F900F01#32 = packAll 0#4 7#3 1#1 1#1 0#1 0#1 1#1 0#4 0#4 7#3 1#1 0#7 1#1 := by decide
  refine ⟨?_, fun _ => by simpa [encode] using hwf.1.1⟩
  show encode _ &&& 0x0F900F01#32 = 0x0C900B00#32
  rw [hmask, encode, pack_eq, packAll_and]
  simp only [BitVec.and_zero, BitVec.and_self, hwf]
  rfl

/-- The row VLDMDB_A1. -/
theorem TableRow.vldmdbA1 (cond : BitVec 4) (dBit : BitVec 1) (rn vd : BitVec 4) (imm8 : BitVec 8) :
    TableRow.Statement (.vldmdbA1 cond dBit rn vd imm8) := by
  intro hwf
  simp only [WellFormed, WellFormed.check, WellFormed.condition, WellFormed.evenImm,
    Bool.and_eq_true, beq_iff_eq, bne_iff_ne] at hwf
  have hmask : 0x0FB00F01#32 = packAll 0#4 7#3 1#1 1#1 0#1 1#1 1#1 0#4 0#4 7#3 1#1 0#7 1#1 := by decide
  refine ⟨?_, fun _ => by simpa [encode] using hwf.1⟩
  show encode _ &&& 0x0FB00F01#32 = 0x0D300B00#32
  rw [hmask, encode, pack_eq, packAll_and]
  simp only [BitVec.and_zero, BitVec.and_self, hwf]
  rfl

/-- The row VLDM_A2. -/
theorem TableRow.vldmA2 (cond : BitVec 4) (dBit wBit : BitVec 1) (rn vd : BitVec 4) (imm8 : BitVec 8) :
    TableRow.Statement (.vldmA2 cond dBit wBit rn vd imm8) := by
  intro hwf
  simp only [WellFormed, WellFormed.check, WellFormed.condition, Bool.and_eq_true, bne_iff_ne] at hwf
  have hmask : 0x0F900F00#32 = packAll 0#4 7#3 1#1 1#1 0#1 0#1 1#1 0#4 0#4 7#3 1#1 0#7 0#1 := by decide
  refine ⟨?_, fun _ => by simpa [encode] using hwf.1⟩
  show encode _ &&& 0x0F900F00#32 = 0x0C900A00#32
  rw [hmask, encode, pack_eq, packAll_and]
  simp only [BitVec.and_zero, BitVec.and_self]
  rfl

/-- The row VLDMDB_A2. -/
theorem TableRow.vldmdbA2 (cond : BitVec 4) (dBit : BitVec 1) (rn vd : BitVec 4) (imm8 : BitVec 8) :
    TableRow.Statement (.vldmdbA2 cond dBit rn vd imm8) := by
  intro hwf
  simp only [WellFormed, WellFormed.check, WellFormed.condition, bne_iff_ne] at hwf
  have hmask : 0x0FB00F00#32 = packAll 0#4 7#3 1#1 1#1 0#1 1#1 1#1 0#4 0#4 7#3 1#1 0#7 0#1 := by decide
  refine ⟨?_, fun _ => by simpa [encode] using hwf⟩
  show encode _ &&& 0x0FB00F00#32 = 0x0D300A00#32
  rw [hmask, encode, pack_eq, packAll_and]
  simp only [BitVec.and_zero, BitVec.and_self]
  rfl

/-- The row VLDM_T1. -/
theorem TableRow.vldmT1 (dBit wBit : BitVec 1) (rn vd : BitVec 4) (imm8 : BitVec 8) :
    TableRow.Statement (.vldmT1 dBit wBit rn vd imm8) := by
  intro hwf
  simp only [WellFormed, WellFormed.check, WellFormed.evenImm, Bool.and_eq_true, beq_iff_eq] at hwf
  have hmask : 0xFF900F01#32 = packAll 15#4 7#3 1#1 1#1 0#1 0#1 1#1 0#4 0#4 7#3 1#1 0#7 1#1 := by decide
  refine ⟨?_, by simp [Instr.instrSet]⟩
  show encode _ &&& 0xFF900F01#32 = 0xEC900B00#32
  rw [hmask, encode, pack_eq, packAll_and]
  simp only [BitVec.and_zero, BitVec.and_self, hwf]
  rfl

/-- The row VLDMDB_T1. -/
theorem TableRow.vldmdbT1 (dBit : BitVec 1) (rn vd : BitVec 4) (imm8 : BitVec 8) :
    TableRow.Statement (.vldmdbT1 dBit rn vd imm8) := by
  intro hwf
  simp only [WellFormed, WellFormed.check, WellFormed.evenImm, beq_iff_eq] at hwf
  have hmask : 0xFFB00F01#32 = packAll 15#4 7#3 1#1 1#1 0#1 1#1 1#1 0#4 0#4 7#3 1#1 0#7 1#1 := by decide
  refine ⟨?_, by simp [Instr.instrSet]⟩
  show encode _ &&& 0xFFB00F01#32 = 0xED300B00#32
  rw [hmask, encode, pack_eq, packAll_and]
  simp only [BitVec.and_zero, BitVec.and_self, hwf]
  rfl

/-- The row VLDM_T2. -/
theorem TableRow.vldmT2 (dBit wBit : BitVec 1) (rn vd : BitVec 4) (imm8 : BitVec 8) :
    TableRow.Statement (.vldmT2 dBit wBit rn vd imm8) := by
  intro _
  have hmask : 0xFF900F00#32 = packAll 15#4 7#3 1#1 1#1 0#1 0#1 1#1 0#4 0#4 7#3 1#1 0#7 0#1 := by decide
  refine ⟨?_, by simp [Instr.instrSet]⟩
  show encode _ &&& 0xFF900F00#32 = 0xEC900A00#32
  rw [hmask, encode, pack_eq, packAll_and]
  simp only [BitVec.and_zero, BitVec.and_self]
  rfl

/-- The row VLDMDB_T2. -/
theorem TableRow.vldmdbT2 (dBit : BitVec 1) (rn vd : BitVec 4) (imm8 : BitVec 8) :
    TableRow.Statement (.vldmdbT2 dBit rn vd imm8) := by
  intro _
  have hmask : 0xFFB00F00#32 = packAll 15#4 7#3 1#1 1#1 0#1 1#1 1#1 0#4 0#4 7#3 1#1 0#7 0#1 := by decide
  refine ⟨?_, by simp [Instr.instrSet]⟩
  show encode _ &&& 0xFFB00F00#32 = 0xED300A00#32
  rw [hmask, encode, pack_eq, packAll_and]
  simp only [BitVec.and_zero, BitVec.and_self]
  rfl

/-- The row VPOP_A1. -/
theorem TableRow.vpopA1 (cond : BitVec 4) (dBit : BitVec 1) (vd : BitVec 4) (imm8 : BitVec 8) :
    TableRow.Statement (.vpopA1 cond dBit vd imm8) := by
  intro hwf
  simp only [WellFormed, WellFormed.check, WellFormed.condition, WellFormed.evenImm,
    Bool.and_eq_true, beq_iff_eq, bne_iff_ne] at hwf
  have hmask : 0x0FBF0F01#32 = packAll 0#4 7#3 1#1 1#1 0#1 1#1 1#1 15#4 0#4 7#3 1#1 0#7 1#1 := by decide
  refine ⟨?_, fun _ => by simpa [encode] using hwf.1⟩
  show encode _ &&& 0x0FBF0F01#32 = 0x0CBD0B00#32
  rw [hmask, encode, pack_eq, packAll_and]
  simp only [BitVec.and_zero, BitVec.and_self, hwf]
  rfl

/-- The row VPOP_A2. -/
theorem TableRow.vpopA2 (cond : BitVec 4) (dBit : BitVec 1) (vd : BitVec 4) (imm8 : BitVec 8) :
    TableRow.Statement (.vpopA2 cond dBit vd imm8) := by
  intro hwf
  simp only [WellFormed, WellFormed.check, WellFormed.condition, bne_iff_ne] at hwf
  have hmask : 0x0FBF0F00#32 = packAll 0#4 7#3 1#1 1#1 0#1 1#1 1#1 15#4 0#4 7#3 1#1 0#7 0#1 := by decide
  refine ⟨?_, fun _ => by simpa [encode] using hwf⟩
  show encode _ &&& 0x0FBF0F00#32 = 0x0CBD0A00#32
  rw [hmask, encode, pack_eq, packAll_and]
  simp only [BitVec.and_zero, BitVec.and_self]
  rfl

/-- The row VPOP_T1. -/
theorem TableRow.vpopT1 (dBit : BitVec 1) (vd : BitVec 4) (imm8 : BitVec 8) :
    TableRow.Statement (.vpopT1 dBit vd imm8) := by
  intro hwf
  simp only [WellFormed, WellFormed.check, WellFormed.evenImm, beq_iff_eq] at hwf
  have hmask : 0xFFBF0F01#32 = packAll 15#4 7#3 1#1 1#1 0#1 1#1 1#1 15#4 0#4 7#3 1#1 0#7 1#1 := by decide
  refine ⟨?_, by simp [Instr.instrSet]⟩
  show encode _ &&& 0xFFBF0F01#32 = 0xECBD0B00#32
  rw [hmask, encode, pack_eq, packAll_and]
  simp only [BitVec.and_zero, BitVec.and_self, hwf]
  rfl

/-- The row VPOP_T2. -/
theorem TableRow.vpopT2 (dBit : BitVec 1) (vd : BitVec 4) (imm8 : BitVec 8) :
    TableRow.Statement (.vpopT2 dBit vd imm8) := by
  intro _
  have hmask : 0xFFBF0F00#32 = packAll 15#4 7#3 1#1 1#1 0#1 1#1 1#1 15#4 0#4 7#3 1#1 0#7 0#1 := by decide
  refine ⟨?_, by simp [Instr.instrSet]⟩
  show encode _ &&& 0xFFBF0F00#32 = 0xECBD0A00#32
  rw [hmask, encode, pack_eq, packAll_and]
  simp only [BitVec.and_zero, BitVec.and_self]
  rfl

/-- The row UNDEFINED_PUW001_A32. -/
theorem TableRow.undefPuw001A32 (cond : BitVec 4) (dBit : BitVec 1) (rn vd : BitVec 4) (size : BitVec 1) (imm8 : BitVec 8) :
    TableRow.Statement (.undefPuw001A32 cond dBit rn vd size imm8) := by
  intro hwf
  simp only [WellFormed, WellFormed.check, WellFormed.condition, bne_iff_ne] at hwf
  have hmask : 0x0FB00E00#32 = packAll 0#4 7#3 1#1 1#1 0#1 1#1 1#1 0#4 0#4 7#3 0#1 0#7 0#1 := by decide
  refine ⟨?_, fun _ => by simpa [encode] using hwf⟩
  show encode _ &&& 0x0FB00E00#32 = 0x0C300A00#32
  rw [hmask, encode, pack_eq, packAll_and]
  simp only [BitVec.and_zero, BitVec.and_self]
  rfl

/-- The row UNDEFINED_PUW111_A32. -/
theorem TableRow.undefPuw111A32 (cond : BitVec 4) (dBit : BitVec 1) (rn vd : BitVec 4) (size : BitVec 1) (imm8 : BitVec 8) :
    TableRow.Statement (.undefPuw111A32 cond dBit rn vd size imm8) := by
  intro hwf
  simp only [WellFormed, WellFormed.check, WellFormed.condition, bne_iff_ne] at hwf
  have hmask : 0x0FB00E00#32 = packAll 0#4 7#3 1#1 1#1 0#1 1#1 1#1 0#4 0#4 7#3 0#1 0#7 0#1 := by decide
  refine ⟨?_, fun _ => by simpa [encode] using hwf⟩
  show encode _ &&& 0x0FB00E00#32 = 0x0DB00A00#32
  rw [hmask, encode, pack_eq, packAll_and]
  simp only [BitVec.and_zero, BitVec.and_self]
  rfl

/-- The row UNDEFINED_PUW001_T32. -/
theorem TableRow.undefPuw001T32 (dBit : BitVec 1) (rn vd : BitVec 4) (size : BitVec 1) (imm8 : BitVec 8) :
    TableRow.Statement (.undefPuw001T32 dBit rn vd size imm8) := by
  intro _
  have hmask : 0xFFB00E00#32 = packAll 15#4 7#3 1#1 1#1 0#1 1#1 1#1 0#4 0#4 7#3 0#1 0#7 0#1 := by decide
  refine ⟨?_, by simp [Instr.instrSet]⟩
  show encode _ &&& 0xFFB00E00#32 = 0xEC300A00#32
  rw [hmask, encode, pack_eq, packAll_and]
  simp only [BitVec.and_zero, BitVec.and_self]
  rfl

/-- The row UNDEFINED_PUW111_T32. -/
theorem TableRow.undefPuw111T32 (dBit : BitVec 1) (rn vd : BitVec 4) (size : BitVec 1) (imm8 : BitVec 8) :
    TableRow.Statement (.undefPuw111T32 dBit rn vd size imm8) := by
  intro _
  have hmask : 0xFFB00E00#32 = packAll 15#4 7#3 1#1 1#1 0#1 1#1 1#1 0#4 0#4 7#3 0#1 0#7 0#1 := by decide
  refine ⟨?_, by simp [Instr.instrSet]⟩
  show encode _ &&& 0xFFB00E00#32 = 0xEDB00A00#32
  rw [hmask, encode, pack_eq, packAll_and]
  simp only [BitVec.and_zero, BitVec.and_self]
  rfl

/-- The row SEE_RELATED_A32. -/
theorem TableRow.seeRelatedA32 (cond : BitVec 4) (dBit : BitVec 1) (rn vd : BitVec 4) (size : BitVec 1) (imm8 : BitVec 8) :
    TableRow.Statement (.seeRelatedA32 cond dBit rn vd size imm8) := by
  intro hwf
  simp only [WellFormed, WellFormed.check, WellFormed.condition, bne_iff_ne] at hwf
  have hmask : 0x0FB00E00#32 = packAll 0#4 7#3 1#1 1#1 0#1 1#1 1#1 0#4 0#4 7#3 0#1 0#7 0#1 := by decide
  refine ⟨?_, fun _ => by simpa [encode] using hwf⟩
  show encode _ &&& 0x0FB00E00#32 = 0x0C100A00#32
  rw [hmask, encode, pack_eq, packAll_and]
  simp only [BitVec.and_zero, BitVec.and_self]
  rfl

/-- The row SEE_RELATED_T32. -/
theorem TableRow.seeRelatedT32 (dBit : BitVec 1) (rn vd : BitVec 4) (size : BitVec 1) (imm8 : BitVec 8) :
    TableRow.Statement (.seeRelatedT32 dBit rn vd size imm8) := by
  intro _
  have hmask : 0xFFB00E00#32 = packAll 15#4 7#3 1#1 1#1 0#1 1#1 1#1 0#4 0#4 7#3 0#1 0#7 0#1 := by decide
  refine ⟨?_, by simp [Instr.instrSet]⟩
  show encode _ &&& 0xFFB00E00#32 = 0xEC100A00#32
  rw [hmask, encode, pack_eq, packAll_and]
  simp only [BitVec.and_zero, BitVec.and_self]
  rfl

/-- The row SEE_VLDR_A32. -/
theorem TableRow.seeVldrA32 (cond : BitVec 4) (uBit dBit : BitVec 1) (rn vd : BitVec 4) (size : BitVec 1) (imm8 : BitVec 8) :
    TableRow.Statement (.seeVldrA32 cond uBit dBit rn vd size imm8) := by
  intro hwf
  simp only [WellFormed, WellFormed.check, WellFormed.condition, bne_iff_ne] at hwf
  have hmask : 0x0F300E00#32 = packAll 0#4 7#3 1#1 0#1 0#1 1#1 1#1 0#4 0#4 7#3 0#1 0#7 0#1 := by decide
  refine ⟨?_, fun _ => by simpa [encode] using hwf⟩
  show encode _ &&& 0x0F300E00#32 = 0x0D100A00#32
  rw [hmask, encode, pack_eq, packAll_and]
  simp only [BitVec.and_zero, BitVec.and_self]
  rfl

/-- The row SEE_VLDR_T32. -/
theorem TableRow.seeVldrT32 (uBit dBit : BitVec 1) (rn vd : BitVec 4) (size : BitVec 1) (imm8 : BitVec 8) :
    TableRow.Statement (.seeVldrT32 uBit dBit rn vd size imm8) := by
  intro _
  have hmask : 0xFF300E00#32 = packAll 15#4 7#3 1#1 0#1 0#1 1#1 1#1 0#4 0#4 7#3 0#1 0#7 0#1 := by decide
  refine ⟨?_, by simp [Instr.instrSet]⟩
  show encode _ &&& 0xFF300E00#32 = 0xED100A00#32
  rw [hmask, encode, pack_eq, packAll_and]
  simp only [BitVec.and_zero, BitVec.and_self]
  rfl

/-- The row FLDMX_A1_IA. -/
theorem TableRow.fldmxA1Ia (cond : BitVec 4) (dBit wBit : BitVec 1) (rn vd : BitVec 4) (imm8 : BitVec 8) :
    TableRow.Statement (.fldmxA1Ia cond dBit wBit rn vd imm8) := by
  intro hwf
  simp only [WellFormed, WellFormed.check, WellFormed.condition, WellFormed.oddImm,
    Bool.and_eq_true, beq_iff_eq, bne_iff_ne] at hwf
  have hmask : 0x0F900F01#32 = packAll 0#4 7#3 1#1 1#1 0#1 0#1 1#1 0#4 0#4 7#3 1#1 0#7 1#1 := by decide
  refine ⟨?_, fun _ => by simpa [encode] using hwf.1⟩
  show encode _ &&& 0x0F900F01#32 = 0x0C900B01#32
  rw [hmask, encode, pack_eq, packAll_and]
  simp only [BitVec.and_zero, BitVec.and_self, hwf]
  rfl

/-- The row FLDMX_A1_DB. -/
theorem TableRow.fldmxA1Db (cond : BitVec 4) (dBit : BitVec 1) (rn vd : BitVec 4) (imm8 : BitVec 8) :
    TableRow.Statement (.fldmxA1Db cond dBit rn vd imm8) := by
  intro hwf
  simp only [WellFormed, WellFormed.check, WellFormed.condition, WellFormed.oddImm,
    Bool.and_eq_true, beq_iff_eq, bne_iff_ne] at hwf
  have hmask : 0x0FB00F01#32 = packAll 0#4 7#3 1#1 1#1 0#1 1#1 1#1 0#4 0#4 7#3 1#1 0#7 1#1 := by decide
  refine ⟨?_, fun _ => by simpa [encode] using hwf.1⟩
  show encode _ &&& 0x0FB00F01#32 = 0x0D300B01#32
  rw [hmask, encode, pack_eq, packAll_and]
  simp only [BitVec.and_zero, BitVec.and_self, hwf]
  rfl

/-- The row FLDMX_T1_IA. -/
theorem TableRow.fldmxT1Ia (dBit wBit : BitVec 1) (rn vd : BitVec 4) (imm8 : BitVec 8) :
    TableRow.Statement (.fldmxT1Ia dBit wBit rn vd imm8) := by
  intro hwf
  simp only [WellFormed, WellFormed.check, WellFormed.oddImm, beq_iff_eq] at hwf
  have hmask : 0xFF900F01#32 = packAll 15#4 7#3 1#1 1#1 0#1 0#1 1#1 0#4 0#4 7#3 1#1 0#7 1#1 := by decide
  refine ⟨?_, by simp [Instr.instrSet]⟩
  show encode _ &&& 0xFF900F01#32 = 0xEC900B01#32
  rw [hmask, encode, pack_eq, packAll_and]
  simp only [BitVec.and_zero, BitVec.and_self, hwf]
  rfl

/-- The row FLDMX_T1_DB. -/
theorem TableRow.fldmxT1Db (dBit : BitVec 1) (rn vd : BitVec 4) (imm8 : BitVec 8) :
    TableRow.Statement (.fldmxT1Db dBit rn vd imm8) := by
  intro hwf
  simp only [WellFormed, WellFormed.check, WellFormed.oddImm, beq_iff_eq] at hwf
  have hmask : 0xFFB00F01#32 = packAll 15#4 7#3 1#1 1#1 0#1 1#1 1#1 0#4 0#4 7#3 1#1 0#7 1#1 := by decide
  refine ⟨?_, by simp [Instr.instrSet]⟩
  show encode _ &&& 0xFFB00F01#32 = 0xED300B01#32
  rw [hmask, encode, pack_eq, packAll_and]
  simp only [BitVec.and_zero, BitVec.and_self, hwf]
  rfl

end Sys2Proof.Laws
end

