-- ==== Sys2Proof/Tests/Slice0.lean ====
section
/-!
SUPPORT. Tests of the model against spec/, and witnesses for the hypotheses of the obligations. Expected values are those
of 95_test_vectors.md (V1 to V43), or computed by hand from the rule cited.
-/
namespace Sys2Proof.Tests

open Sys2Proof Sys2Proof.Machine

/-! ### Ill-formed terms are refused (R61, R73, R85) -/

theorem test_illFormed_condition : ¬ WellFormed (.vldmA2 0b1111#4 0#1 0#1 0#4 0#4 1#8) := by decide
theorem test_illFormed_oddVldm : ¬ WellFormed (.vldmT1 0#1 0#1 0#4 0#4 5#8) := by decide
theorem test_illFormed_evenFldmx : ¬ WellFormed (.fldmxA1Ia 0b1110#4 0#1 0#1 0#4 0#4 4#8) := by decide
theorem test_illFormed_pop : ¬ WellFormed (.vldmA1 0b1110#4 0#1 1#1 0b1101#4 0#4 4#8) := by decide

/-! ### One word per row, written out bit by bit from the row's encoding (R61, R63, R76; bytes by R53) -/

/-- 1010 1100 1101 0110 1001 1011 0101 0010 -/
theorem test_decode_vldmA1 :
    decode .a32 [0b01010010#8, 0b10011011#8, 0b11010110#8, 0b10101100#8] =
      .instr (.vldmA1 0b1010#4 1#1 0#1 0b0110#4 0b1001#4 0b01010010#8) [] := by decide

/-- 0011 1101 0011 1011 0010 1011 0101 0010 -/
theorem test_decode_vldmdbA1 :
    decode .a32 [0b01010010#8, 0b00101011#8, 0b00111011#8, 0b00111101#8] =
      .instr (.vldmdbA1 0b0011#4 0#1 0b1011#4 0b0010#4 0b01010010#8) [] := by decide

/-- 0000 1100 1111 0001 1110 1010 0101 0010 -/
theorem test_decode_vldmA2 :
    decode .a32 [0b01010010#8, 0b11101010#8, 0b11110001#8, 0b00001100#8] =
      .instr (.vldmA2 0b0000#4 1#1 1#1 0b0001#4 0b1110#4 0b01010010#8) [] := by decide

/-- 1101 1101 0011 0110 1001 1010 0101 0010 -/
theorem test_decode_vldmdbA2 :
    decode .a32 [0b01010010#8, 0b10011010#8, 0b00110110#8, 0b11011101#8] =
      .instr (.vldmdbA2 0b1101#4 0#1 0b0110#4 0b1001#4 0b01010010#8) [] := by decide

/-- 1110 1100 1101 1011 0010 1011 0101 0010 -/
theorem test_decode_vldmT1 :
    decode .t32 [0b11011011#8, 0b11101100#8, 0b01010010#8, 0b00101011#8] =
      .instr (.vldmT1 1#1 0#1 0b1011#4 0b0010#4 0b01010010#8) [] := by decide

/-- 1110 1101 0011 0001 1110 1011 0101 0010 -/
theorem test_decode_vldmdbT1 :
    decode .t32 [0b00110001#8, 0b11101101#8, 0b01010010#8, 0b11101011#8] =
      .instr (.vldmdbT1 0#1 0b0001#4 0b1110#4 0b01010010#8) [] := by decide

/-- 1110 1100 1111 0110 1001 1010 0101 0010 -/
theorem test_decode_vldmT2 :
    decode .t32 [0b11110110#8, 0b11101100#8, 0b01010010#8, 0b10011010#8] =
      .instr (.vldmT2 1#1 1#1 0b0110#4 0b1001#4 0b01010010#8) [] := by decide

/-- 1110 1101 0011 1011 0010 1010 0101 0010 -/
theorem test_decode_vldmdbT2 :
    decode .t32 [0b00111011#8, 0b11101101#8, 0b01010010#8, 0b00101010#8] =
      .instr (.vldmdbT2 0#1 0b1011#4 0b0010#4 0b01010010#8) [] := by decide

/-- 1010 1100 1111 1101 1110 1011 0101 0010 -/
theorem test_decode_vpopA1 :
    decode .a32 [0b01010010#8, 0b11101011#8, 0b11111101#8, 0b10101100#8] =
      .instr (.vpopA1 0b1010#4 1#1 0b1110#4 0b01010010#8) [] := by decide

/-- 0011 1100 1011 1101 1001 1010 0101 0010 -/
theorem test_decode_vpopA2 :
    decode .a32 [0b01010010#8, 0b10011010#8, 0b10111101#8, 0b00111100#8] =
      .instr (.vpopA2 0b0011#4 0#1 0b1001#4 0b01010010#8) [] := by decide

/-- 1110 1100 1111 1101 0010 1011 0101 0010 -/
theorem test_decode_vpopT1 :
    decode .t32 [0b11111101#8, 0b11101100#8, 0b01010010#8, 0b00101011#8] =
      .instr (.vpopT1 1#1 0b0010#4 0b01010010#8) [] := by decide

/-- 1110 1100 1011 1101 1110 1010 0101 0010 -/
theorem test_decode_vpopT2 :
    decode .t32 [0b10111101#8, 0b11101100#8, 0b01010010#8, 0b11101010#8] =
      .instr (.vpopT2 0#1 0b1110#4 0b01010010#8) [] := by decide

/-- 1010 1100 0111 0110 1001 1011 0101 0010 -/
theorem test_decode_undefPuw001A32 :
    decode .a32 [0b01010010#8, 0b10011011#8, 0b01110110#8, 0b10101100#8] =
      .instr (.undefPuw001A32 0b1010#4 1#1 0b0110#4 0b1001#4 1#1 0b01010010#8) [] := by decide

/-- 0011 1101 1011 1011 0010 1010 0101 0010 -/
theorem test_decode_undefPuw111A32 :
    decode .a32 [0b01010010#8, 0b00101010#8, 0b10111011#8, 0b00111101#8] =
      .instr (.undefPuw111A32 0b0011#4 0#1 0b1011#4 0b0010#4 0#1 0b01010010#8) [] := by decide

/-- 1110 1100 0111 0001 1110 1011 0101 0010 -/
theorem test_decode_undefPuw001T32 :
    decode .t32 [0b01110001#8, 0b11101100#8, 0b01010010#8, 0b11101011#8] =
      .instr (.undefPuw001T32 1#1 0b0001#4 0b1110#4 1#1 0b01010010#8) [] := by decide

/-- 1110 1101 1011 0110 1001 1010 0101 0010 -/
theorem test_decode_undefPuw111T32 :
    decode .t32 [0b10110110#8, 0b11101101#8, 0b01010010#8, 0b10011010#8] =
      .instr (.undefPuw111T32 0#1 0b0110#4 0b1001#4 0#1 0b01010010#8) [] := by decide

/-- 1010 1100 0101 1011 0010 1011 0101 0010 -/
theorem test_decode_seeRelatedA32 :
    decode .a32 [0b01010010#8, 0b00101011#8, 0b01011011#8, 0b10101100#8] =
      .instr (.seeRelatedA32 0b1010#4 1#1 0b1011#4 0b0010#4 1#1 0b01010010#8) [] := by decide

/-- 1110 1100 0001 0001 1110 1010 0101 0010 -/
theorem test_decode_seeRelatedT32 :
    decode .t32 [0b00010001#8, 0b11101100#8, 0b01010010#8, 0b11101010#8] =
      .instr (.seeRelatedT32 0#1 0b0001#4 0b1110#4 0#1 0b01010010#8) [] := by decide

/-- 0000 1101 1101 0110 1001 1011 0101 0010 -/
theorem test_decode_seeVldrA32 :
    decode .a32 [0b01010010#8, 0b10011011#8, 0b11010110#8, 0b00001101#8] =
      .instr (.seeVldrA32 0b0000#4 1#1 1#1 0b0110#4 0b1001#4 1#1 0b01010010#8) [] := by decide

/-- 1110 1101 0001 1011 0010 1010 0101 0010 -/
theorem test_decode_seeVldrT32 :
    decode .t32 [0b00011011#8, 0b11101101#8, 0b01010010#8, 0b00101010#8] =
      .instr (.seeVldrT32 0#1 0#1 0b1011#4 0b0010#4 0#1 0b01010010#8) [] := by decide

/-- 1010 1100 1101 0001 1110 1011 0101 0011 -/
theorem test_decode_fldmxA1Ia :
    decode .a32 [0b01010011#8, 0b11101011#8, 0b11010001#8, 0b10101100#8] =
      .instr (.fldmxA1Ia 0b1010#4 1#1 0#1 0b0001#4 0b1110#4 0b01010011#8) [] := by decide

/-- 0011 1101 0011 0110 1001 1011 0101 0011 -/
theorem test_decode_fldmxA1Db :
    decode .a32 [0b01010011#8, 0b10011011#8, 0b00110110#8, 0b00111101#8] =
      .instr (.fldmxA1Db 0b0011#4 0#1 0b0110#4 0b1001#4 0b01010011#8) [] := by decide

/-- 1110 1100 1111 1011 0010 1011 0101 0011 -/
theorem test_decode_fldmxT1Ia :
    decode .t32 [0b11111011#8, 0b11101100#8, 0b01010011#8, 0b00101011#8] =
      .instr (.fldmxT1Ia 1#1 1#1 0b1011#4 0b0010#4 0b01010011#8) [] := by decide

/-- 1110 1101 0011 0001 1110 1011 0101 0011 -/
theorem test_decode_fldmxT1Db :
    decode .t32 [0b00110001#8, 0b11101101#8, 0b01010011#8, 0b11101011#8] =
      .instr (.fldmxT1Db 0#1 0b0001#4 0b1110#4 0b01010011#8) [] := by decide

/-- The length test of R60 and the words outside the table (95 section 2.1: `0xFC900B04`, `0xEC800B04`). -/
theorem test_decode_rejects :
    decode .t32 [0x04#8, 0x0B#8, 0xB0#8, 0xEC#8] = .rejected .halfwordInstruction ∧
    decode .a32 [0x04#8, 0x0B#8, 0x90#8, 0xFC#8] = .rejected .unconditional ∧
    decode .a32 [0x04#8, 0x0B#8, 0x80#8, 0xEC#8] = .rejected .notInTable ∧
    decode .a32 [0x04#8, 0x0B#8, 0x90#8] = .rejected .truncated := by decide

/-! ### Printing (R87) -/

/-- 95 section 2.1: `0xECB00B04`, `0xECBD8B10`, `0xAD72FA01`, `0xEC9F0B02`; one register is written alone. -/
theorem test_disassemble :
    disassemble 0b1110#4 (.vldmA1 0b1110#4 0#1 1#1 0#4 0#4 4#8) = some "VLDM r0!, \x7bd0-d1\x7d".toList ∧
    disassemble 0b1110#4 (.vpopA1 0b1110#4 0#1 8#4 16#8) = some "VPOP \x7bd8-d15\x7d".toList ∧
    disassemble 0b1110#4 (.vldmdbA2 0b1010#4 1#1 2#4 15#4 1#8) = some "VLDMDBGE r2!, \x7bs31\x7d".toList ∧
    disassemble 0b1110#4 (.vldmA1 0b1110#4 0#1 0#1 15#4 0#4 2#8) = some "VLDM pc, \x7bd0\x7d".toList := by decide

/-- R80: in an IT block with condition NE the text agrees with it, and an A32 word does not look at it. -/
theorem test_disassemble_itBlock :
    disassemble 0b0001#4 (.vldmT1 0#1 1#1 0#4 0#4 4#8) = some "VLDMNE r0!, \x7bd0-d1\x7d".toList ∧
    disassemble 0b1110#4 (.vldmT1 0#1 1#1 0#4 0#4 4#8) = some "VLDM r0!, \x7bd0-d1\x7d".toList ∧
    disassemble 0b0001#4 (.vldmA1 0b1110#4 0#1 1#1 0#4 0#4 4#8) = some "VLDM r0!, \x7bd0-d1\x7d".toList := by decide

/-! ### Small states -/

/-- The parameters of the vectors: the defaults of R6, access enabled, no memory but the 16 bytes at 0x1000. -/
def vectorParams : Params :=
  { fpCheck := .constant .enabled, el2 := true, el3AArch32 := true, cp10Reserved := .refuse,
    memAdmission := .regions [{ base := 0x1000, size := 16, answer := .ok },
      { base := 0, size := 2 ^ 32, answer := .outside }],
    cuRegs0 := .refuse, cuRange := .refuse, oddImm8 := .refuse }

/-- The start state of the vectors, with `v` in every general-purpose register. -/
def std (v : Word) : State :=
  { State.reset with
    regs := Vector.replicate 15 v, pc := 0x8000#32, dregs := Vector.replicate 32 0xAAAAAAAABBBBBBBB#64,
    mem := (List.range 15).map (fun k => (0x1001 + k, BitVec.ofNat 8 (k + 1))), params := vectorParams }

/-- The start state with bytes 00 to 7F at 0x1000 and every address admitted. -/
def wide (v : Word) : State :=
  { std v with
    mem := (List.range 127).map (fun k => (0x1001 + k, BitVec.ofNat 8 (k + 1))),
    params := { vectorParams with memAdmission := .regions [] } }

/-- The same with an odd `imm8` executed as the source's pseudocode. -/
def odd (v : Word) : State :=
  { wide v with params := { vectorParams with memAdmission := .regions [], oddImm8 := .asSourcePseudocode } }

/-- A state read as T32, outside any IT block. -/
def inT32 (s : State) : State := { s with iset := .t32 }

/-- Other parameters. -/
def withParams (p : Params) (s : State) : State := { s with params := p }

/-- A pattern decoded and executed. -/
def run (set : InstrSet) (pattern : Word) (s : State) : Result :=
  match decode set (patternBytes set pattern) with
  | .instr i _ => exec i { s with iset := set }
  | .rejected e => .refused (.undecodable e)

/-- The outcome is a next state with the property. -/
def completes (r : Result) (p : State → Bool) : Bool :=
  match r with
  | .next u => p u
  | _ => false

/-- The outcome is this Data Abort, with a state that has the property. -/
def aborts (r : Result) (kind : AbortKind) (addr : Word) (p : State → Bool) : Bool :=
  match r with
  | .fault (.dataAbort k a u) => decide (k = kind) && decide (a = addr) && p u
  | _ => false

/-- The outcome is Undefined Instruction with the state `s`. -/
def undefinedWith (r : Result) (s : State) : Bool :=
  match r with
  | .fault (.undefinedInstruction u) => decide (u = s)
  | _ => false

/-- The outcome is the trap to Hyp mode with the state `s`. -/
def trappedWith (r : Result) (s : State) : Bool :=
  match r with
  | .fault (.hypTrap u) => decide (u = s)
  | _ => false

/-- The outcome is this refusal. -/
def refusedAs (r : Result) (q : Refusal) : Bool :=
  match r with
  | .refused q' => decide (q' = q)
  | _ => false

/-! ### Each instruction on one step -/

/-- V1, V12. -/
theorem test_vldmA1 :
    completes (run .a32 0xECB00B04#32 (std 0x1000#32)) (fun u =>
      readD 0 u == 0x0706050403020100#64 && readD 1 u == 0x0F0E0D0C0B0A0908#64 && readD 2 u == 0xAAAAAAAABBBBBBBB#64 &&
        readReg 0#4 u == 0x1010#32 && u.pc == 0x8004#32) = true ∧
    completes (run .a32 0xEC900B04#32 { std 0x1000#32 with e := true }) (fun u =>
      readD 0 u == 0x0001020304050607#64 && readD 1 u == 0x08090A0B0C0D0E0F#64 && readReg 0#4 u == 0x1000#32) = true := by
  decide

/-- V15, V20: the last register, and a base that is a multiple of 4 but not of 8. -/
theorem test_vldmA1_edges :
    completes (run .a32 0xECF4FB02#32 (std 0x1008#32)) (fun u =>
      readD 31 u == 0x0F0E0D0C0B0A0908#64 && readReg 4#4 u == 0x1010#32) = true ∧
    completes (run .a32 0xEC900B02#32 (std 0x1004#32)) (fun u => readD 0 u == 0x0B0A090807060504#64) = true := by decide

/-- V3. -/
theorem test_vldmdbA1 :
    completes (run .a32 0xED314B04#32 (std 0x1010#32)) (fun u =>
      readD 4 u == 0x0706050403020100#64 && readD 5 u == 0x0F0E0D0C0B0A0908#64 && readReg 1#4 u == 0x1000#32 &&
        u.pc == 0x8004#32) = true := by decide

/-- V4, V13. -/
theorem test_vldmA2 :
    completes (run .a32 0xECD20A01#32 (std 0x1008#32)) (fun u =>
      readD 0 u == 0x0B0A0908BBBBBBBB#64 && readReg 2#4 u == 0x1008#32 && u.pc == 0x8004#32) = true ∧
    completes (run .a32 0xEC900A04#32 { std 0x1000#32 with e := true }) (fun u =>
      readS 0 u == 0x00010203#32 && readS 3 u == 0x0C0D0E0F#32 && readD 0 u == 0x0405060700010203#64) = true := by decide

/-- V16, V26: `S31`, and the PC as base. -/
theorem test_vldmA2_edges :
    completes (run .a32 0xECD0FA01#32 (std 0x100C#32)) (fun u => readD 15 u == 0x0F0E0D0CBBBBBBBB#64) = true ∧
    completes (run .a32 0xEC9F0A02#32
      (placeBytes 0x8008#32 [0xDE#8, 0xC0#8, 0xAD#8, 0x0B#8, 0xEF#8, 0xBE#8, 0xAD#8, 0xDE#8] (wide 0#32))) (fun u =>
      readD 0 u == 0xDEADBEEF0BADC0DE#64 && u.pc == 0x8004#32) = true := by decide

/-- V5, V25. -/
theorem test_vldmdbA2 :
    completes (run .a32 0xED310A04#32 (std 0x1010#32)) (fun u =>
      readS 0 u == 0x03020100#32 && readS 3 u == 0x0F0E0D0C#32 && readReg 1#4 u == 0x1000#32) = true ∧
    completes (run .a32 0xAD361A02#32 { std 0x1008#32 with flagN := true, flagV := true }) (fun u =>
      readD 1 u == 0x0706050403020100#64 && readReg 6#4 u == 0x1000#32) = true := by decide

/-- V38: a range that ends exactly at 2^32. -/
theorem test_vldmdbA2_top :
    completes (run .a32 0xED310A04#32 (placeBytes 0xFFFFFFF0#32 [0x00#8, 0x01#8, 0x02#8, 0x03#8] (wide 0#32))) (fun u =>
      readS 0 u == 0x03020100#32 && readReg 1#4 u == 0xFFFFFFF0#32) = true := by decide

/-- V6, and R30: in an IT block with condition EQ (`0x04` is EQ with two instructions left), Z = 0 skips and the mask moves. -/
theorem test_vldmT1 :
    completes (run .t32 0xECB00B04#32 (std 0x1000#32)) (fun u =>
      readD 0 u == 0x0706050403020100#64 && readD 1 u == 0x0F0E0D0C0B0A0908#64 && readReg 0#4 u == 0x1010#32) = true ∧
    completes (run .t32 0xECB00B04#32 { std 0x1000#32 with itstate := 0x04#8 }) (fun u =>
      readD 0 u == 0xAAAAAAAABBBBBBBB#64 && readReg 0#4 u == 0x1000#32 && u.pc == 0x8004#32 && u.itstate == 0x08#8) =
        true := by decide

/-- V7. -/
theorem test_vldmdbT1 :
    completes (run .t32 0xED314B04#32 (std 0x1010#32)) (fun u =>
      readD 4 u == 0x0706050403020100#64 && readD 5 u == 0x0F0E0D0C0B0A0908#64 && readReg 1#4 u == 0x1000#32) = true := by
  decide

/-- V8. -/
theorem test_vldmT2 :
    completes (run .t32 0xECD20A01#32 (std 0x1008#32)) (fun u =>
      readD 0 u == 0x0B0A0908BBBBBBBB#64 && readReg 2#4 u == 0x1008#32) = true := by decide

/-- V9. -/
theorem test_vldmdbT2 :
    completes (run .t32 0xED310A04#32 (std 0x1010#32)) (fun u =>
      readD 0 u == 0x0706050403020100#64 && readD 1 u == 0x0F0E0D0C0B0A0908#64 && readReg 1#4 u == 0x1000#32) = true := by
  decide

/-- V10. -/
theorem test_vpopA1 :
    completes (run .a32 0xECBD8B10#32 (wide 0x1000#32)) (fun u =>
      readD 8 u == 0x0706050403020100#64 && readD 15 u == 0x3F3E3D3C3B3A3938#64 && readD 7 u == 0xAAAAAAAABBBBBBBB#64 &&
        readD 16 u == 0xAAAAAAAABBBBBBBB#64 && readReg 13#4 u == 0x1040#32) = true := by decide

/-- V11. -/
theorem test_vpopA2 :
    completes (run .a32 0xECBD8A10#32 (wide 0x1000#32)) (fun u =>
      readD 8 u == 0x0706050403020100#64 && readD 15 u == 0x3F3E3D3C3B3A3938#64 && readReg 13#4 u == 0x1040#32) = true := by
  decide

/-- R100 on the pattern of V10 in T32. -/
theorem test_vpopT1 :
    completes (run .t32 0xECBD8B10#32 (wide 0x1000#32)) (fun u =>
      readD 8 u == 0x0706050403020100#64 && readD 15 u == 0x3F3E3D3C3B3A3938#64 && readReg 13#4 u == 0x1040#32) = true := by
  decide

/-- R100 on `0xECFD1A01`, VPOP of `S3` (95 section 2.1): the high half of `D1`. -/
theorem test_vpopT2 :
    completes (run .t32 0xECFD1A01#32 (std 0x1000#32)) (fun u =>
      readD 1 u == 0x03020100BBBBBBBB#64 && readReg 13#4 u == 0x1004#32) = true := by decide

/-- 95 section 2.1: `0xEC300B04`, `0xEDB00B04` fault; `0x0C300B04` with Z = 0 is skipped. -/
theorem test_undefined_words :
    undefinedWith (run .a32 0xEC300B04#32 (std 0#32)) (std 0#32) = true ∧
    undefinedWith (run .a32 0xEDB00B04#32 (std 0#32)) (std 0#32) = true ∧
    undefinedWith (run .t32 0xEC300B04#32 (std 0#32)) (inT32 (std 0#32)) = true ∧
    undefinedWith (run .t32 0xEDB00B04#32 (std 0#32)) (inT32 (std 0#32)) = true ∧
    completes (run .a32 0x0C300B04#32 (std 0#32)) (fun u => u == { std 0#32 with pc := 0x8004#32 }) = true := by decide

/-- 95 section 2.1: `0xEC100B04`, `0xED100B04`, `0xED900B04` belong to other instructions, in both instruction sets (R70). -/
theorem test_redirected_words :
    refusedAs (run .a32 0xEC100B04#32 (std 0#32)) (.redirect .relatedEncodings) = true ∧
    refusedAs (run .t32 0xEC100B04#32 (std 0#32)) (.redirect .relatedEncodings) = true ∧
    refusedAs (run .a32 0xED100B04#32 (std 0#32)) (.redirect .vldr) = true ∧
    refusedAs (run .t32 0xED900B04#32 (std 0#32)) (.redirect .vldr) = true := by decide

/-- V34 under both settings. -/
theorem test_fldmxA1Ia :
    refusedAs (run .a32 0xEC900B05#32 (wide 0x1000#32)) (.redirect .fldmx) = true ∧
    completes (run .a32 0xEC900B05#32 (odd 0x1000#32)) (fun u =>
      readD 0 u == 0x0706050403020100#64 && readD 1 u == 0x0F0E0D0C0B0A0908#64 && readD 2 u == 0xAAAAAAAABBBBBBBB#64 &&
        readReg 0#4 u == 0x1000#32) = true := by decide

/-- R108 by hand: `imm32 = 20`, so the start and the new base are 0x1014 - 20. -/
theorem test_fldmxA1Db :
    completes (run .a32 0xED310B05#32 (odd 0x1014#32)) (fun u =>
      readD 0 u == 0x0706050403020100#64 && readD 1 u == 0x0F0E0D0C0B0A0908#64 && readReg 1#4 u == 0x1000#32) = true := by
  decide

/-- R108 by hand: the base increases by `imm32 = 20`. -/
theorem test_fldmxT1Ia :
    completes (run .t32 0xECB00B05#32 (odd 0x1000#32)) (fun u =>
      readD 1 u == 0x0F0E0D0C0B0A0908#64 && readReg 0#4 u == 0x1014#32) = true := by decide

/-- R108 by hand, as in A32. -/
theorem test_fldmxT1Db :
    completes (run .t32 0xED310B05#32 (odd 0x1014#32)) (fun u =>
      readD 1 u == 0x0F0E0D0C0B0A0908#64 && readReg 1#4 u == 0x1000#32) = true := by decide

/-! ### Aborts, traps, refusals -/

/-- V21. -/
theorem test_misaligned :
    aborts (run .a32 0xECB00B02#32 (std 0x1002#32)) .alignment 0x1002#32 (fun u =>
      readReg 0#4 u == 0x1002#32 && u.pc == 0x8000#32 && readD 1 u == 0xAAAAAAAABBBBBBBB#64) = true := by decide

/-- The map of V40: the word at 0x1008 aborts. -/
def translationAt1008 : Params :=
  { vectorParams with memAdmission := .regions [{ base := 0x1008, size := 4, answer := .abort .translation }] }

/-- V40: only the third word aborts, so that one is reported. -/
theorem test_abort_in_the_middle :
    aborts (run .a32 0xEC900B04#32 (withParams translationAt1008 (std 0x1000#32))) (.memory .translation) 0x1008#32
      (fun u => readReg 0#4 u == 0x1000#32 && u.pc == 0x8000#32 && readD 2 u == 0xAAAAAAAABBBBBBBB#64) = true := by decide

/-- A map in which the word at 0x1008 aborts in User mode only (R48: the answer may depend on the state). -/
def privilegedAt1008 : Params :=
  { vectorParams with
    memAdmission := .regions [{ base := 0x1008, size := 4, answer := .abort .permission, mode := some .user }] }

theorem test_abort_by_mode :
    aborts (run .a32 0xEC900B04#32 { withParams privilegedAt1008 (std 0x1000#32) with mode := .user })
      (.memory .permission) 0x1008#32 (fun u => readReg 0#4 u == 0x1000#32 && u.pc == 0x8000#32) = true ∧
    completes (run .a32 0xEC900B04#32 (withParams privilegedAt1008 (std 0x1000#32))) (fun u =>
      readD 1 u == 0x0F0E0D0C0B0A0908#64) = true := by decide

/-- V41, V42, V43: the access check comes before the reads, and an UNDEFINED word before the access check. -/
theorem test_access_check :
    undefinedWith (run .a32 0xECB00B04#32 (withParams { vectorParams with fpCheck := .constant .undefined } (std 2#32)))
      (withParams { vectorParams with fpCheck := .constant .undefined } (std 2#32)) = true ∧
    trappedWith (run .a32 0xECB00B04#32 (withParams { vectorParams with fpCheck := .constant .hypTrap } (std 2#32)))
      (withParams { vectorParams with fpCheck := .constant .hypTrap } (std 2#32)) = true ∧
    undefinedWith (run .a32 0xEC300B04#32 (withParams { vectorParams with fpCheck := .constant .hypTrap } (std 2#32)))
      (withParams { vectorParams with fpCheck := .constant .hypTrap } (std 2#32)) = true := by decide

/-- V27, V28, V29, V30, V31 under the defaults. -/
theorem test_lists_refused :
    refusedAs (run .a32 0xEC900B00#32 (std 0x1000#32)) .unpredictableNoRegs = true ∧
    refusedAs (run .a32 0xECB00A00#32 (std 0x1000#32)) .unpredictableNoRegs = true ∧
    refusedAs (run .a32 0xECD0EB08#32 (std 0x1000#32)) .unpredictableRange = true ∧
    refusedAs (run .a32 0xEC900B22#32 (std 0x1000#32)) .unpredictableRange = true ∧
    refusedAs (run .a32 0xECB0FA04#32 (std 0x1000#32)) .unpredictableRange = true := by decide

/-- V32, V33, V35 under as_source_pseudocode, V36, V37, and V39 with a list of one word. -/
theorem test_refused :
    refusedAs (run .a32 0xECBF0B04#32 (std 0x1000#32)) .unpredictablePcBase = true ∧
    refusedAs (run .t32 0xEC9F0B02#32 (std 0x1000#32)) .unpredictablePcBase = true ∧
    refusedAs (run .a32 0xEC90FB05#32 (odd 0x1000#32)) .unpredictableOddList = true ∧
    refusedAs (run .a32 0xECB00B04#32 (std 0xFFFFFFF8#32)) .crossesTop = true ∧
    refusedAs (run .a32 0xED310A04#32 (std 0x8#32)) .crossesTop = true ∧
    refusedAs (run .a32 0xEC900A01#32 (std 0x3000#32)) (.outsideMemory 0x3000#32) = true := by decide

/-- V23, V24. -/
theorem test_condition :
    completes (run .a32 0x4CB02B02#32 (std 0x1000#32)) (fun u => u == { std 0x1000#32 with pc := 0x8004#32 }) = true ∧
    completes (run .a32 0x4CB02B02#32 { std 0x1000#32 with flagN := true }) (fun u =>
      readD 2 u == 0x0706050403020100#64 && readReg 0#4 u == 0x1008#32 && u.pc == 0x8004#32) = true := by decide

/-! ### The step -/

/-- P1 step 1: the bytes `04 0B B0 EC` at `pc`, read little-endian in either byte order of data. -/
theorem test_step :
    completes (step (placeBytes 0x8000#32 [0x04#8, 0x0B#8, 0xB0#8, 0xEC#8] (std 0x1000#32))) (fun u =>
      readD 0 u == 0x0706050403020100#64 && u.pc == 0x8004#32) = true ∧
    completes (step (placeBytes 0x8000#32 [0x04#8, 0x0B#8, 0xB0#8, 0xEC#8] { std 0x1000#32 with e := true })) (fun u =>
      readD 0 u == 0x0001020304050607#64) = true := by decide

/-- A table word placed by `withFetchWord` is the next instruction: `0x0C900B04` in A32, `0xECB00B04` in T32. -/
theorem test_withFetchWord :
    decodeTableWord 32 0x0C900B04 = some (.vldmA1 0#4 0#1 0#1 0#4 0#4 4#8) ∧
    decodeTableWord 32 0xECB00B04 = some (.vldmT1 0#1 1#1 0#4 0#4 4#8) ∧
    completes (step (State.reset.withFetchWord 32 0xECB00B04)) (fun u => u.pc == 4#32 && readReg 0#4 u == 16#32) = true := by
  decide

/-! ### Witnesses: states and operands that meet the hypotheses of the obligations -/

/-- The conditions of `LegalList`, evaluated. -/
def legalCheck (t : Transfer) (s : State) : Bool :=
  decide (t.n = 15#4 → t.wback = false ∧ s.iset = .a32) && decide (0 < t.regs) &&
    decide (t.single = false → t.regs ≤ 16) && decide (t.d + t.regs ≤ 32) &&
    decide (t.single = false → isOdd t.imm8 = true → t.d + t.regs ≤ 16)

theorem legal_of_check {t : Transfer} {s : State} (h : legalCheck t s = true) : LegalList t s := by
  simp only [legalCheck, Bool.and_eq_true, decide_eq_true_eq] at h
  obtain ⟨⟨⟨⟨h1, h2⟩, h3⟩, h4⟩, h5⟩ := h
  exact ⟨h1, h2, h3, h4, h5⟩

/-- The conditions of `RunsNormally`, evaluated. -/
def runsCheck (t : Transfer) (s : State) : Bool :=
  conditionPasses t.cond s && legalCheck t s && decide (fpAccess s = some .enabled) &&
    isWordAligned (startAddress t s) && decide ((startAddress t s).toNat + 4 * t.imm8.toNat ≤ 2 ^ 32) &&
    decide (∀ i < wordCount t, memAdmit (wordAddress t s i) s = .ok)

theorem runs_of_check {t : Transfer} {s : State} (h : runsCheck t s = true) : RunsNormally t s := by
  simp only [runsCheck, Bool.and_eq_true, decide_eq_true_eq] at h
  obtain ⟨⟨⟨⟨⟨h1, h2⟩, h3⟩, h4⟩, h5⟩, h6⟩ := h
  exact ⟨h1, legal_of_check h2, h3, h4, h5, h6⟩

theorem test_witness_DecodeInvertsEncode :
    WellFormed (.vldmA1 0b1110#4 1#1 1#1 15#4 15#4 0xFE#8) ∧ WellFormed (.seeVldrT32 1#1 1#1 15#4 15#4 1#1 0xFF#8) := by
  decide

theorem test_witness_EncodeInvertsDecode :
    decode .a32 [0x04#8, 0x0B#8, 0xB0#8, 0xEC#8, 0x55#8] = .instr (.vldmA1 0b1110#4 0#1 1#1 0#4 0#4 4#8) [0x55#8] := by
  decide

/-- The longest lists and the last registers. -/
theorem test_witness_AssembledListDecodes :
    assembleDoubles 16 31 = some (1#1, 0#4, 32#8) ∧ assembleDoubles 31 31 = some (1#1, 15#4, 2#8) ∧
    assembleDoubles 0 16 = none ∧ assembleSingles 0 31 = some (0#1, 0#4, 32#8) ∧
    assembleSingles 31 31 = some (1#1, 15#4, 1#8) := by decide

/-- R27 at the last `S` register and the last `D` register with halves. -/
theorem test_witness_SinglesAreHalvesOfDoubles :
    readD 15 (writeS 31 0x11112222#32 (std 0#32)) = 0x11112222BBBBBBBB#64 ∧
    readS 30 (writeD 15 0x1111222233334444#64 (std 0#32)) = 0x33334444#32 ∧
    readQ 15 (writeD 31 1#64 (std 0#32)) = 0x0000000000000001AAAAAAAABBBBBBBB#128 := by decide

/-- V26's base, the T32 offset, and register 14. -/
theorem test_witness_BaseRegisterReads :
    readReg 15#4 (std 0#32) = 0x8008#32 ∧ readReg 15#4 (inT32 (std 0#32)) = 0x8004#32 ∧ (14#4 : BitVec 4) ≠ 15#4 ∧
    readReg 14#4 (writeReg 14#4 7#32 (std 0#32)) = 7#32 := by decide

/-- The four clauses on `CurrentCond()`. -/
theorem test_witness_ConditionTable :
    (std 0#32).iset = .a32 ∧ (inT32 (std 0#32)).itstate = 0#8 ∧
    currentCond 0b1110#4 { inT32 (std 0#32) with itstate := 0x18#8 } = some 0b0001#4 ∧
    currentCond 0b1110#4 { inT32 (std 0#32) with itstate := 0x10#8 } = none := by decide

theorem test_witness_WordByteOrder :
    (std 0#32).e = false ∧ wordAt 0x1004#32 (std 0#32) = 0x07060504#32 ∧
    wordAt 0x1004#32 { std 0#32 with e := true } = 0x04050607#32 := by decide

theorem test_witness_DoublewordByteOrder :
    7 < 8 ∧ doubleAt 0x1004#32 (std 0#32) = 0x0B0A090807060504#64 ∧
    doubleAt 0x1004#32 { std 0#32 with e := true } = 0x0405060708090A0B#64 := by decide

/-- One address for each clause. -/
theorem test_witness_WordReadOutcomes :
    (0x1002#32).toNat % 4 ≠ 0 ∧ memAdmit 0x1010#32 (std 0#32) = .outside ∧ memAdmit 0x100C#32 (std 0#32) = .ok ∧
    memAdmit 0x1008#32 (withParams translationAt1008 (std 0#32)) = .abort .translation ∧
    memAdmit 0x1004#32 (withParams translationAt1008 (std 0#32)) = .ok := by decide

/-- With writeback, without, with the PC as base, and with the list that ends at `D31`. -/
theorem test_witness_VldmA1LoadsDoublewords :
    isOdd 4#8 = false ∧ RunsNormally (doubleTransfer 0b1110#4 true (1#1 == 1#1) 0#1 0#4 0#4 4#8) (std 0x1000#32) ∧
    RunsNormally (doubleTransfer 0b1110#4 true (0#1 == 1#1) 0#1 15#4 0#4 4#8) (wide 0x1000#32) ∧
    isOdd 32#8 = false ∧ RunsNormally (doubleTransfer 0b1110#4 true (0#1 == 1#1) 1#1 3#4 0#4 32#8) (wide 0x1000#32) :=
  ⟨by decide, runs_of_check (by decide), runs_of_check (by decide), by decide, runs_of_check (by decide)⟩

theorem test_witness_VldmdbA1LoadsDoublewords :
    isOdd 4#8 = false ∧ RunsNormally (doubleTransfer 0b1110#4 false true 0#1 1#4 4#4 4#8) (std 0x1010#32) :=
  ⟨by decide, runs_of_check (by decide)⟩

/-- With writeback, with the PC as base, and with the list of all 32 registers. -/
theorem test_witness_VldmA2LoadsWords :
    RunsNormally (singleTransfer 0b1110#4 true (1#1 == 1#1) 1#1 2#4 0#4 1#8) (std 0x1008#32) ∧
    RunsNormally (singleTransfer 0b1110#4 true (0#1 == 1#1) 0#1 15#4 0#4 2#8) (wide 0x1000#32) ∧
    RunsNormally (singleTransfer 0b1110#4 true (0#1 == 1#1) 0#1 0#4 0#4 32#8) (wide 0x1000#32) :=
  ⟨runs_of_check (by decide), runs_of_check (by decide), runs_of_check (by decide)⟩

theorem test_witness_VldmdbA2LoadsWords :
    RunsNormally (singleTransfer 0b1110#4 false true 0#1 1#4 0#4 4#8) (std 0x1010#32) ∧
    RunsNormally (singleTransfer 0b1110#4 false true 0#1 1#4 0#4 4#8) (wide 0#32) :=
  ⟨runs_of_check (by decide), runs_of_check (by decide)⟩

/-- Outside an IT block, and in one whose condition (EQ) holds. -/
theorem test_witness_VldmT1LoadsDoublewords :
    isOdd 4#8 = false ∧ RunsNormally (doubleTransfer 0b1110#4 true (1#1 == 1#1) 0#1 0#4 0#4 4#8) (inT32 (std 0x1000#32)) ∧
    RunsNormally (doubleTransfer 0b1110#4 true (0#1 == 1#1) 0#1 0#4 0#4 4#8)
      { inT32 (std 0x1000#32) with itstate := 0x08#8, flagZ := true } :=
  ⟨by decide, runs_of_check (by decide), runs_of_check (by decide)⟩

theorem test_witness_VldmdbT1LoadsDoublewords :
    isOdd 4#8 = false ∧ RunsNormally (doubleTransfer 0b1110#4 false true 0#1 1#4 4#4 4#8) (inT32 (std 0x1010#32)) :=
  ⟨by decide, runs_of_check (by decide)⟩

theorem test_witness_VldmT2LoadsWords :
    RunsNormally (singleTransfer 0b1110#4 true (0#1 == 1#1) 1#1 2#4 0#4 1#8) (inT32 (std 0x1008#32)) ∧
    RunsNormally (singleTransfer 0b1110#4 true (1#1 == 1#1) 1#1 2#4 0#4 1#8) (inT32 (std 0x1008#32)) :=
  ⟨runs_of_check (by decide), runs_of_check (by decide)⟩

theorem test_witness_VldmdbT2LoadsWords :
    RunsNormally (singleTransfer 0b1110#4 false true 0#1 1#4 0#4 4#8) (inT32 (std 0x1010#32)) :=
  runs_of_check (by decide)

/-- In A32 and in T32. -/
theorem test_witness_VpopLoadsDoublewords :
    isOdd 16#8 = false ∧ RunsNormally (doubleTransfer 0b1110#4 true true 0#1 13#4 8#4 16#8) (wide 0x1000#32) ∧
    RunsNormally (doubleTransfer 0b1110#4 true true 0#1 13#4 8#4 16#8) (inT32 (wide 0x1000#32)) :=
  ⟨by decide, runs_of_check (by decide), runs_of_check (by decide)⟩

/-- In A32 and in T32. -/
theorem test_witness_VpopLoadsWords :
    RunsNormally (singleTransfer 0b1110#4 true true 0#1 13#4 8#4 16#8) (wide 0x1000#32) ∧
    RunsNormally (singleTransfer 0b1110#4 true true 0#1 13#4 8#4 16#8) (inT32 (wide 0x1000#32)) :=
  ⟨runs_of_check (by decide), runs_of_check (by decide)⟩

/-- In A32 and in T32, with and without writeback, and with a list that ends at `D15`. -/
theorem test_witness_FldmxIncrementAfterLoads :
    isOdd 5#8 = true ∧ (odd 0#32).params.oddImm8 = .asSourcePseudocode ∧
    RunsNormally (doubleTransfer 0b1110#4 true (0#1 == 1#1) 0#1 0#4 14#4 5#8) (odd 0x1000#32) ∧
    RunsNormally (doubleTransfer 0b1110#4 true (1#1 == 1#1) 0#1 0#4 0#4 5#8) (inT32 (odd 0x1000#32)) :=
  ⟨by decide, rfl, runs_of_check (by decide), runs_of_check (by decide)⟩

/-- In A32 and in T32. -/
theorem test_witness_FldmxDecrementBeforeLoads :
    isOdd 5#8 = true ∧ (odd 0#32).params.oddImm8 = .asSourcePseudocode ∧
    RunsNormally (doubleTransfer 0b1110#4 false true 0#1 1#4 0#4 5#8) (odd 0x1014#32) ∧
    RunsNormally (doubleTransfer 0b1110#4 false true 0#1 1#4 0#4 5#8) (inT32 (odd 0x1014#32)) :=
  ⟨by decide, rfl, runs_of_check (by decide), runs_of_check (by decide)⟩

/-- In both byte orders, with the list that ends at `D15`. -/
theorem test_witness_SameBytesThroughEitherView :
    isOdd 4#8 = false ∧ (14#4).toNat + (4#8).toNat / 2 ≤ 16 ∧ (std 0#32).e = false ∧
    RunsNormally (doubleTransfer 0b1110#4 true (1#1 == 1#1) 0#1 0#4 14#4 4#8) (std 0x1000#32) ∧
    RunsNormally (doubleTransfer 0b1110#4 true (1#1 == 1#1) 0#1 0#4 14#4 4#8) { std 0x1000#32 with e := true } :=
  ⟨by decide, by decide, rfl, runs_of_check (by decide), runs_of_check (by decide)⟩

/-- A VLDM in A32 and an UNDEFINED word in an IT block. -/
theorem test_witness_FailedConditionSkips :
    isRedirected (.vldmA1 0#4 0#1 1#1 0#4 0#4 4#8) (std 0#32) = false ∧
    conditionFails (fieldCond (encode (.vldmA1 0#4 0#1 1#1 0#4 0#4 4#8))) (std 0#32) = true ∧
    conditionFails (fieldCond (encode (.undefPuw111T32 0#1 0#4 0#4 1#1 4#8)))
      { inT32 (std 0#32) with itstate := 0x08#8 } = true := by decide

/-- Both clauses, in A32 and in T32. -/
theorem test_witness_UndefinedWordsFaultOrSkip :
    conditionPasses 0b1110#4 (std 0#32) = true ∧ conditionFails 0#4 (std 0#32) = true ∧
    conditionPasses 0b1110#4 (inT32 (std 0#32)) = true ∧
    conditionFails 0b1110#4 { inT32 (std 0#32) with itstate := 0x08#8 } = true := by decide

theorem test_witness_RedirectedWordsAreRefused : (0b1110#4 : BitVec 4) ≠ 0b1111#4 := by decide

theorem test_witness_FldmxRefusedByDefault : (std 0#32).params.oddImm8 = .refuse := rfl

/-- Both clauses. -/
theorem test_witness_NoConditionIsRefused :
    isRedirected (.vldmT1 0#1 0#1 0#4 0#4 4#8) (inT32 (std 0#32)) = false ∧ (inT32 (std 0#32)).iset = .t32 ∧
    ((0x10#8).extractLsb' 0 4 = 0#4 ∧ (0x10#8 : BitVec 8) ≠ 0#8) ∧
    ((0xF8#8).extractLsb' 0 4 ≠ 0#4 ∧ (0xF8#8).extractLsb' 4 4 = 0b1111#4) := by decide

/-- With writeback in A32; without it in T32. -/
theorem test_witness_PcBaseIsRefused :
    Executes (.vldmA1 0b1110#4 0#1 1#1 15#4 0#4 4#8) (doubleTransfer 0b1110#4 true (1#1 == 1#1) 0#1 15#4 0#4 4#8)
      (std 0#32) ∧
    conditionPasses 0b1110#4 (std 0#32) = true ∧
    Executes (.vldmT1 0#1 0#1 15#4 0#4 2#8) (doubleTransfer 0b1110#4 true (0#1 == 1#1) 0#1 15#4 0#4 2#8)
      (inT32 (std 0#32)) ∧
    conditionPasses 0b1110#4 (inT32 (std 0#32)) = true :=
  ⟨⟨rfl, rfl⟩, by decide, ⟨rfl, rfl⟩, by decide⟩

/-- V35: `d = 15`, two registers. -/
theorem test_witness_OddListPastD15IsRefused :
    Executes (.fldmxA1Ia 0b1110#4 0#1 0#1 0#4 15#4 5#8) (doubleTransfer 0b1110#4 true (0#1 == 1#1) 0#1 0#4 15#4 5#8)
      (odd 0#32) ∧
    conditionPasses 0b1110#4 (odd 0#32) = true ∧ (0#4 : BitVec 4) ≠ 15#4 ∧ isOdd 5#8 = true ∧
    16 < firstDouble 0#1 15#4 + doubleCount 5#8 :=
  ⟨⟨rfl, rfl⟩, by decide, by decide, by decide, by decide⟩

/-- The vector parameters with other settings for the two lists and the access check. -/
def settings (c0 : CuRegs0) (cr : CuRange) (a : FpAccess) : Params :=
  { vectorParams with cuRegs0 := c0, cuRange := cr, fpCheck := .constant a, memAdmission := .regions [] }

/-- Every setting and every answer of the access check, with an empty `S` list and writeback (V28). -/
theorem test_witness_EmptyListTreatments (c0 : CuRegs0) (a : FpAccess) :
    Executes (.vldmA2 0b1110#4 0#1 1#1 0#4 0#4 0#8) (singleTransfer 0b1110#4 true (1#1 == 1#1) 0#1 0#4 0#4 0#8)
      (withParams (settings c0 .refuse a) (std 0x1000#32)) ∧
    conditionPasses 0b1110#4 (withParams (settings c0 .refuse a) (std 0x1000#32)) = true ∧
    (0#4 : BitVec 4) ≠ 15#4 ∧ singleCount 0#8 = 0 ∧
    (withParams (settings c0 .refuse a) (std 0x1000#32)).params.cuRegs0 = c0 ∧
    fpAccess (withParams (settings c0 .refuse a) (std 0x1000#32)) = some a ∧
    (startAddress (singleTransfer 0b1110#4 true (1#1 == 1#1) 0#1 0#4 0#4 0#8)
      (withParams (settings c0 .refuse a) (std 0x1000#32))).toNat + 4 * (0#8).toNat ≤ 2 ^ 32 :=
  ⟨⟨rfl, rfl⟩, rfl, by decide, rfl, rfl, rfl, by cases c0 <;> cases a <;> decide⟩

/-- What `no_regs` does with an odd `imm8` of 1: the base moves by 4 and no register is loaded (R104, R108). -/
theorem test_emptyList_odd :
    completes (run .a32 0xECB00B01#32
      (withParams { settings .noRegs .refuse .enabled with oddImm8 := .asSourcePseudocode } (std 0x1000#32))) (fun u =>
      readReg 0#4 u == 0x1004#32 && decide (u.dregs = (std 0#32).dregs)) = true := by decide

/-- Every setting, with a `D` list of 17 (V30) and an `S` list that passes `S31` (V31). -/
theorem test_witness_LongListTreatments (cr : CuRange) :
    Executes (.vldmA1 0b1110#4 0#1 0#1 0#4 0#4 34#8) (doubleTransfer 0b1110#4 true (0#1 == 1#1) 0#1 0#4 0#4 34#8)
      (withParams (settings .refuse cr .enabled) (std 0x1000#32)) ∧
    isOdd 34#8 = false ∧ 16 < doubleCount 34#8 ∧
    Executes (.vldmA2 0b1110#4 0#1 1#1 0#4 15#4 4#8) (singleTransfer 0b1110#4 true (1#1 == 1#1) 0#1 0#4 15#4 4#8)
      (withParams (settings .refuse cr .enabled) (std 0x1000#32)) ∧
    32 < firstSingle 0#1 15#4 + singleCount 4#8 ∧
    conditionPasses 0b1110#4 (withParams (settings .refuse cr .enabled) (std 0x1000#32)) = true ∧
    (0#4 : BitVec 4) ≠ 15#4 ∧ (withParams (settings .refuse cr .enabled) (std 0x1000#32)).params.cuRange = cr :=
  ⟨⟨rfl, rfl⟩, by decide, by decide, ⟨rfl, rfl⟩, by decide, rfl, by decide, rfl⟩

/-- The transfer of V1. -/
def v1 : Transfer := doubleTransfer 0b1110#4 true (1#1 == 1#1) 0#1 0#4 0#4 4#8

/-- V1's word runs with these constants in every state. -/
theorem v1_executes (s : State) : Executes (.vldmA1 0b1110#4 0#1 1#1 0#4 0#4 4#8) v1 s := ⟨rfl, rfl⟩

theorem test_witness_HypTrapLeavesTheState :
    conditionPasses v1.cond (withParams (settings .refuse .refuse .hypTrap) (std 2#32)) = true ∧
    LegalList v1 (withParams (settings .refuse .refuse .hypTrap) (std 2#32)) ∧
    fpAccess (withParams (settings .refuse .refuse .hypTrap) (std 2#32)) = some .hypTrap :=
  ⟨by decide, legal_of_check (by decide), rfl⟩

theorem test_witness_DisabledAccessIsUndefined :
    conditionPasses v1.cond (withParams (settings .refuse .refuse .undefined) (std 2#32)) = true ∧
    LegalList v1 (withParams (settings .refuse .refuse .undefined) (std 2#32)) ∧
    fpAccess (withParams (settings .refuse .refuse .undefined) (std 2#32)) = some .undefined :=
  ⟨by decide, legal_of_check (by decide), rfl⟩

/-- The three causes: the word, the access check, a choice of R104. -/
theorem test_witness_UndefinedInstructionCauses :
    exec (.undefPuw001A32 0b1110#4 0#1 0#4 0#4 1#1 4#8) (std 0#32) = .fault (.undefinedInstruction (std 0#32)) ∧
    undefinedWith (run .a32 0xECB00B04#32 (withParams (settings .refuse .refuse .undefined) (std 2#32)))
      (withParams (settings .refuse .refuse .undefined) (std 2#32)) = true ∧
    undefinedWith (run .a32 0xECB00A00#32 (withParams (settings .undefined .refuse .enabled) (std 0#32)))
      (withParams (settings .undefined .refuse .enabled) (std 0#32)) = true :=
  ⟨rfl, by decide, by decide⟩

/-- The start state with R122 deciding the access, and these control registers. -/
def controlled (cpacr fpexc hcptr : Word) (security : Security) (mode : Mode) : State :=
  { std 0#32 with
    params := { vectorParams with fpCheck := .registers }, nsacr := 0x400#32,
    cpacr := cpacr, fpexc := fpexc, hcptr := hcptr, security := security, mode := mode }

/-- One state per clause: no access, FPEXC.EN = 0, trapped in Hyp mode, trapped below it, enabled, the reserved value; and
NSACR.cp10 = 0 in Non-secure state. -/
theorem test_witness_AccessCheckFromRegisters :
    fpAccess (controlled 0#32 0x40000000#32 0#32 .secure .supervisor) = some .undefined ∧
    fpAccess (controlled 0x100000#32 0x40000000#32 0#32 .secure .user) = some .undefined ∧
    fpAccess (controlled 0x300000#32 0#32 0#32 .secure .user) = some .undefined ∧
    fpAccess (controlled 0x300000#32 0x40000000#32 0x400#32 .nonSecure .hyp) = some .undefined ∧
    fpAccess (controlled 0x300000#32 0x40000000#32 0x400#32 .nonSecure .user) = some .hypTrap ∧
    fpAccess (controlled 0x300000#32 0x40000000#32 0#32 .nonSecure .user) = some .enabled ∧
    fpAccess (controlled 0x200000#32 0x40000000#32 0#32 .secure .user) = none ∧
    fpAccess { controlled 0x300000#32 0x40000000#32 0#32 .nonSecure .user with nsacr := 0#32 } = some .undefined := by
  decide

/-- V36. -/
theorem test_witness_RangeCrossingTheTopIsRefused :
    conditionPasses v1.cond (std 0xFFFFFFF8#32) = true ∧ LegalList v1 (std 0xFFFFFFF8#32) ∧
    fpAccess (std 0xFFFFFFF8#32) = some .enabled ∧
    2 ^ 32 < (startAddress v1 (std 0xFFFFFFF8#32)).toNat + 4 * v1.imm8.toNat :=
  ⟨by decide, legal_of_check (by decide), rfl, by decide⟩

/-- V21's base, and the last base from which the range fits. -/
theorem test_witness_MisalignedBaseAborts :
    conditionPasses v1.cond (std 0x1002#32) = true ∧ LegalList v1 (std 0x1002#32) ∧
    fpAccess (std 0x1002#32) = some .enabled ∧
    (startAddress v1 (std 0x1002#32)).toNat + 4 * v1.imm8.toNat ≤ 2 ^ 32 ∧ (readReg v1.n (std 0x1002#32)).toNat % 4 ≠ 0 ∧
    (startAddress v1 (std 0xFFFFFFEF#32)).toNat + 4 * v1.imm8.toNat ≤ 2 ^ 32 ∧
    (readReg v1.n (std 0xFFFFFFEF#32)).toNat % 4 ≠ 0 :=
  ⟨by decide, legal_of_check (by decide), rfl, by decide, by decide, by decide, by decide⟩

/-- V40, whose state after the abort is the one of R51. -/
theorem test_witness_DataAbortChangesTheListOnly :
    LegalList v1 (withParams translationAt1008 (std 0x1000#32)) ∧
    exec (.vldmA1 0b1110#4 0#1 1#1 0#4 0#4 4#8) (withParams translationAt1008 (std 0x1000#32)) =
      .fault (.dataAbort (.memory .translation) 0x1008#32
        (abortState v1 (withParams translationAt1008 (std 0x1000#32)))) :=
  ⟨legal_of_check (by decide), rfl⟩

/-- A word that aborts, and one outside (V39, V40). -/
theorem test_witness_UnadmittedWordStopsTheTransfer :
    LegalList v1 (std 0x3000#32) ∧ conditionPasses v1.cond (std 0x3000#32) = true ∧
    (startAddress v1 (std 0x3000#32)).toNat + 4 * v1.imm8.toNat ≤ 2 ^ 32 ∧
    isWordAligned (startAddress v1 (std 0x3000#32)) = true ∧ 0 < wordCount v1 ∧
    memAdmit (wordAddress v1 (std 0x3000#32) 0) (std 0x3000#32) = .outside ∧
    memAdmit (wordAddress v1 (withParams translationAt1008 (std 0x1000#32)) 2)
      (withParams translationAt1008 (std 0x1000#32)) = .abort .translation ∧ 2 < wordCount v1 :=
  ⟨legal_of_check (by decide), by decide, by decide, by decide, by decide, by decide, by decide, by decide⟩

/-- A next state and a fault, for the three statements over both. -/
theorem test_witness_NextMovesOnAndFaultStays :
    completes (exec (.vldmA1 0b1110#4 0#1 1#1 0#4 0#4 4#8) (std 0x1000#32)) (fun _ => true) = true ∧
    exec (.undefPuw111A32 0b1110#4 0#1 0#4 0#4 1#1 4#8) (std 0#32) = .fault (.undefinedInstruction (std 0#32)) :=
  ⟨by decide, rfl⟩

theorem test_witness_NothingOutsideTheWriteSetChanges :
    completes (exec (.vldmdbT1 0#1 0#4 0#4 4#8) (inT32 (std 0x1010#32))) (fun _ => true) = true ∧
    aborts (exec (.vldmA1 0b1110#4 0#1 1#1 0#4 0#4 4#8) (std 0x1002#32)) .alignment 0x1002#32 (fun _ => true) = true := by
  decide

/-- V1 changes its base register. -/
theorem test_witness_OnlyTheBaseRegisterChanges :
    (0#4 : BitVec 4) ≠ 15#4 ∧
    completes (exec (.vldmA1 0b1110#4 0#1 1#1 0#4 0#4 4#8) (std 0x1000#32)) (fun u =>
      decide (readReg 0#4 u ≠ readReg 0#4 (std 0x1000#32))) = true := by decide

/-- P1 step 1, in A32; the same pattern in T32. -/
theorem test_witness_StepRunsTheInstructionAtPc :
    WellFormed (.vldmA1 0b1110#4 0#1 1#1 0#4 0#4 4#8) ∧
    pcAligned (placeBytes 0x8000#32 [0x04#8, 0x0B#8, 0xB0#8, 0xEC#8] (std 0x1000#32)) = true ∧
    (placeBytes 0x8000#32 [0x04#8, 0x0B#8, 0xB0#8, 0xEC#8] (std 0x1000#32)).pc.toNat + 4 < 2 ^ 32 ∧
    fetchBytes (placeBytes 0x8000#32 [0x04#8, 0x0B#8, 0xB0#8, 0xEC#8] (std 0x1000#32)) =
      encodeBytes (.vldmA1 0b1110#4 0#1 1#1 0#4 0#4 4#8) ∧
    fetchBytes (placeBytes 0x8000#32 [0xB0#8, 0xEC#8, 0x04#8, 0x0B#8] (inT32 (std 0x1000#32))) =
      encodeBytes (.vldmT1 0#1 1#1 0#4 0#4 4#8) := by decide

/-- Both clauses: bytes that decode, and bytes that do not. -/
theorem test_witness_StepRunsTheDecodedInstruction :
    decode .a32 (fetchBytes (placeBytes 0x8000#32 [0x04#8, 0x0B#8, 0xB0#8, 0xEC#8] (std 0#32))) =
      .instr (.vldmA1 0b1110#4 0#1 1#1 0#4 0#4 4#8) [] ∧
    decode .a32 (fetchBytes (std 0#32)) = .rejected .notInTable ∧ pcAligned (std 0#32) = true ∧
    (std 0#32).pc.toNat + 4 < 2 ^ 32 := by decide

/-- The four refusals, the highest address at which an A32 instruction runs, and a step that completes. -/
theorem test_witness_PcAlignmentRefusedOrPreserved :
    (0x8002#32).toNat % 4 ≠ 0 ∧ (0x8001#32).toNat % 2 ≠ 0 ∧ 2 ^ 32 ≤ (0xFFFFFFFC#32).toNat + 4 ∧
    (0xFFFFFFFC#32).toNat % 4 = 0 ∧ 2 ^ 32 ≤ (0xFFFFFFFE#32).toNat + 4 ∧ (0xFFFFFFFE#32).toNat % 2 = 0 ∧
    completes (step (placeBytes 0xFFFFFFF8#32 [0x04#8, 0x0B#8, 0xB0#8, 0xEC#8] { wide 0x1000#32 with pc := 0xFFFFFFF8#32 }))
      (fun u => u.pc == 0xFFFFFFFC#32) = true := by decide

/-- P1's first state meets the invariant and steps on; so does a state in an IT block. -/
theorem test_witness_EveryStepKeepsTheInvariant :
    (placeBytes 0x8000#32 [0x04#8, 0x0B#8, 0xB0#8, 0xEC#8] (std 0x1000#32)).Inv ∧
    completes (step (placeBytes 0x8000#32 [0x04#8, 0x0B#8, 0xB0#8, 0xEC#8] (std 0x1000#32))) (fun _ => true) = true ∧
    itLegal { inT32 (std 0#32) with itstate := 0x04#8 } = true :=
  ⟨⟨by decide, by decide, by decide⟩, by decide, by decide⟩

/-- DIT and FPSCR at other values than the start state's: V1 again. -/
theorem test_witness_DitAndFpscrDecideNothing :
    completes (exec (.vldmA1 0b1110#4 0#1 1#1 0#4 0#4 4#8) { std 0x1000#32 with dit := true, fpscr := 0xF0000000#32 })
      (fun u => readD 0 u == 0x0706050403020100#64 && u.dit && u.fpscr == 0xF0000000#32) = true := by decide

end Sys2Proof.Tests
end

section
/-!
PROOFS. The state after reset (00_scope.md R6, 10_state.md R38, 70_reset_and_hazards.md R140).
-/
namespace Sys2Proof.Machine

variable {s : State}

/-- Address 0 is aligned in both instruction sets (R24). -/
theorem pcAligned_of_pc_eq_zero (h : s.pc = 0#32) : pcAligned s = true := by
  unfold pcAligned
  rw [h]
  cases s.iset with
  | a32 => rfl
  | t32 => rfl

/-- Outside an IT block `ITSTATE` is legal in both instruction sets (R29, R30). -/
theorem itLegal_of_itstate_eq_zero (h : s.itstate = 0#8) : itLegal s = true := by
  unfold itLegal
  rw [h]
  cases s.iset with
  | a32 => rfl
  | t32 => rfl

/-- Where `FPAccess` is a constant of the run, the control registers decide nothing (R121). -/
theorem fpAccess_of_constant {answer : FpAccess} (h : s.params.fpCheck = .constant answer) :
    fpAccess s = some answer := by
  simp only [fpAccess, h]

/-- The base case for the states reachable from reset. -/
theorem reset_inv : State.reset.Inv where
  pc  := pcAligned_of_pc_eq_zero rfl
  it  := itLegal_of_itstate_eq_zero rfl
  mem := reset_mem_wf

/-- Settles O55: the invariant from the zero `pc` and `ITSTATE`, the access check from the constant setting of reset; the
rest are fields of the reset state. -/
theorem resetMeetsTheInvariant : Obligations.ResetMeetsTheInvariant :=
  ⟨reset_inv, rfl, fpAccess_of_constant rfl, rfl, rfl, rfl⟩

end Sys2Proof.Machine
end

section
/-!
PROOFS. Registers, conditions and `ITSTATE` (10_state.md R20 to R30).
-/
namespace Sys2Proof.Machine

/-! ### The register files -/

/-- An even `S` register is the low half of its `D` register (R27). -/
theorem readS_even (k : Nat) (s : State) : readS (2 * k) s = (readD k s).extractLsb' 0 32 := by
  simp [readS]

/-- An odd `S` register is the high half of its `D` register (R27). -/
theorem readS_odd (k : Nat) (s : State) : readS (2 * k + 1) s = (readD k s).extractLsb' 32 32 := by
  have hdiv : (2 * k + 1) / 2 = k := by omega
  have hmod : (2 * k + 1) % 2 = 1 := by omega
  simp [readS, hdiv, hmod]

/-- Settles O9: the halves by the parity of the index, the writes by the read-after-write laws of the two views. -/
theorem singlesAreHalvesOfDoubles : Obligations.SinglesAreHalvesOfDoubles := by
  intro s
  refine ⟨fun k _ => ⟨readS_even k s, readS_odd k s⟩, fun i hi v => ⟨?_, ?_⟩, fun k hk v => ⟨?_, fun _ => ?_⟩,
    fun _ _ => rfl⟩
  · exact fun j _ => readS_writeS j i v s hi
  · exact fun k _ hne => readD_writeS k i v s hi hne
  · exact fun j _ => readD_writeD j k v s hk
  · have hread : readD k (writeD k v s) = v := by rw [readD_writeD k k v s hk, if_pos rfl]
    rw [readS_even, readS_odd, hread]
    exact ⟨rfl, rfl⟩

/-- `R15` reads as the instruction's address plus 8 in A32 (R22). -/
theorem readReg_pc_a32 {s : State} (h : s.iset = .a32) : readReg 15#4 s = s.pc + 8#32 := by
  simp [readReg, readPc, h]

/-- `R15` reads as the instruction's address plus 4 in T32 (R22). -/
theorem readReg_pc_t32 {s : State} (h : s.iset = .t32) : readReg 15#4 s = s.pc + 4#32 := by
  simp [readReg, readPc, h]

/-- Settles O10, from the read-after-write law of the general-purpose registers and the reads of `R15`. -/
theorem baseRegisterReads : Obligations.BaseRegisterReads :=
  ⟨readReg_writeReg, fun _ => readReg_pc_a32, fun _ => readReg_pc_t32, writeReg_r15⟩

/-! ### The condition -/

/-- In A32 the condition is the instruction's own (R29). -/
theorem currentCond_a32 {s : State} (c : BitVec 4) (h : s.iset = .a32) : currentCond c s = some c := by
  simp [currentCond, h]

/-- Inside an IT block the condition is the upper half of `ITSTATE` (R29). -/
theorem currentCond_inItBlock {s : State} (c : BitVec 4) (h : s.iset = .t32)
    (hlow : s.itstate.extractLsb' 0 4 ≠ 0#4) : currentCond c s = some (s.itstate.extractLsb' 4 4) := by
  simp [currentCond, h, hlow]

/-- In T32 outside an IT block the condition is AL (R29). -/
theorem currentCond_outsideItBlock {s : State} (c : BitVec 4) (h : s.iset = .t32) (hzero : s.itstate = 0#8) :
    currentCond c s = some 0b1110#4 := by
  simp [currentCond, h, hzero]

/-- A non-zero `ITSTATE` with a zero low half gives no condition (R29). -/
theorem currentCond_none {s : State} (c : BitVec 4) (h : s.iset = .t32) (hlow : s.itstate.extractLsb' 0 4 = 0#4)
    (hne : s.itstate ≠ 0#8) : currentCond c s = none := by
  simp [currentCond, h, hlow, hne]

/-- Settles O11: each row is an evaluation of the table, but LS and LE, which the table has as negations of HI and GT; the
current condition is one lemma per case of R29. -/
theorem conditionTable : Obligations.ConditionTable := by
  intro s
  refine ⟨rfl, rfl, rfl, rfl, rfl, rfl, rfl, rfl, rfl, ?_, rfl, rfl, rfl, ?_, rfl, fun c =>
    ⟨currentCond_a32 c, currentCond_inItBlock c, currentCond_outsideItBlock c, currentCond_none c⟩⟩
  · show (!(s.flagC && !s.flagZ)) = _
    rw [Bool.not_and, Bool.not_not]
  · show (!(s.flagN == s.flagV && !s.flagZ)) = _
    rw [Bool.not_and, Bool.not_not]; rfl

theorem conditional_none {c : BitVec 4} {s : State} (body : Result) (h : currentCond c s = none) :
    conditional c s body = .refused .unpredictableItState := by
  simp [conditional, h]

theorem conditional_1111 {c : BitVec 4} {s : State} (body : Result) (h : currentCond c s = some 0b1111#4) :
    conditional c s body = .refused .condition1111 := by
  simp [conditional, h]

/-- Every word that is not redirected tests the condition before anything else (R90 line 1, R71). -/
theorem exec_conditional {i : Instr} {s : State} (h : isRedirected i s = false) :
    ∃ body, exec i s = conditional (fieldCond (encode i)) s body := by
  obtain ⟨t, ht⟩ | hu := transfer_or_undefined h
  · rw [fieldCond_encode ht]
    exact ⟨_, exec_of_executes ⟨ht, h⟩⟩
  · exact ⟨_, exec_of_undefinedWord s hu⟩

/-- Settles O34: both values of `ITSTATE` stop the word at its condition, before its body. -/
theorem noConditionIsRefused : Obligations.NoConditionIsRefused := by
  intro i s hr hset
  obtain ⟨body, hexec⟩ := exec_conditional hr
  rw [hexec]
  refine ⟨fun hlow hne => conditional_none body (currentCond_none _ hset hlow hne), fun hlow hcond => ?_⟩
  exact conditional_1111 body (by rw [currentCond_inItBlock _ hset hlow, hcond])

/-! ### `ITAdvance()` -/

/-- Settles O12: both branches of R30 as numbers. -/
theorem itAdvanceShiftsTheMask : Obligations.ItAdvanceShiftsTheMask := by
  intro it
  have hmask : it.extractLsb' 0 3 = 0#3 ↔ it.toNat % 8 = 0 := by
    simp [← BitVec.toNat_inj, BitVec.extractLsb'_toNat]
  unfold itAdvance
  simp only [hmask]
  split
  · rfl
  · have hlt := it.isLt
    rw [BitVec.toNat_append, ← Nat.shiftLeft_add_eq_or_of_lt (BitVec.isLt _)]
    simp [BitVec.extractLsb'_toNat, Nat.shiftLeft_eq, Nat.shiftRight_eq_div_pow]
    omega

end Sys2Proof.Machine
end

section
/-!
PROOFS. The write set (10_state.md R21, R23, R30, R36, R39): what every outcome of an instruction leaves alone, from one
lemma per shared operation of `Machine/Operands.lean`.
-/
namespace Sys2Proof.Machine

/-! ### Which registers an operation writes -/

/-- `x` is `s` with other contents of the registers and another draw counter; of `R0` to `R14` only those in `base`
may differ. -/
structure RegisterWrites (base : BitVec 4 → Prop) (s x : State) : Prop where
  frame : x = { s with regs := x.regs, dregs := x.dregs, draws := x.draws }
  reads : ∀ m : BitVec 4, m ≠ 15#4 → readReg m x ≠ readReg m s → base m

namespace RegisterWrites

variable {base : BitVec 4 → Prop} {s x y : State}

/-- A change of the `D` file and of the draw counter alone writes no general-purpose register. -/
theorem of_frame (h : x = { s with dregs := x.dregs, draws := x.draws }) : RegisterWrites base s x := by
  have hregs : x.regs = s.regs := by rw [h]
  refine ⟨?_, fun m hm hne => absurd (readReg_congr hregs hm) hne⟩
  rw [hregs]
  exact h

theorem refl : RegisterWrites base s s := of_frame rfl

theorem trans (hx : RegisterWrites base s x) (hy : RegisterWrites base x y) : RegisterWrites base s y := by
  refine ⟨hy.frame.trans (by rw [hx.frame]), fun m hm hne => ?_⟩
  by_cases hxs : readReg m x = readReg m s
  · exact hy.reads m hm (hxs ▸ hne)
  · exact hx.reads m hm hxs

theorem mono {wider : BitVec 4 → Prop} (h : RegisterWrites base s x) (hsub : ∀ m, base m → wider m) :
    RegisterWrites wider s x :=
  ⟨h.frame, fun m hm hne => hsub m (h.reads m hm hne)⟩

theorem drawn (k : Nat) : RegisterWrites base s (drawn k s) := of_frame rfl

theorem writeReg {n : BitVec 4} (v : Word) (h : base n) : RegisterWrites base s (writeReg n v s) := by
  refine ⟨rfl, fun m hm hne => ?_⟩
  by_cases hn : n = 15#4
  · exact absurd (by rw [hn, writeReg_r15]) hne
  · rw [readReg_writeReg m n v s hn] at hne
    by_cases hmn : m = n
    · exact hmn ▸ h
    · exact absurd (if_neg hmn) hne

end RegisterWrites

/-- `R[m]` is the base register of a transfer with writeback (R90 line 13). -/
def Transfer.WritesBack (t : Transfer) (m : BitVec 4) : Prop := t.wback = true ∧ t.n = m

section Operations

variable (t : Transfer) (s x : State)

theorem loadList_writes (ws : List Word) : RegisterWrites t.WritesBack s (loadList t ws s) :=
  .of_frame (by rw [loadList_frame])

theorem abortState_writes : RegisterWrites t.WritesBack s (abortState t s) :=
  .of_frame (by rw [abortState_frame])

theorem writeBase_writes : RegisterWrites t.WritesBack x (writeBase t s x) := by
  unfold writeBase
  split
  · exact .writeReg _ ⟨‹_›, rfl⟩
  · exact .refl

theorem unknownRange_writes : RegisterWrites t.WritesBack s (unknownRange t s) := by
  have hall : RegisterWrites t.WritesBack s (unknownDoubles 0 32 s) := .of_frame (by rw [unknownDoubles_frame])
  unfold unknownRange unknownReg
  split
  · exact (hall.trans (.writeReg _ ⟨‹_›, rfl⟩)).trans (.drawn 1)
  · exact hall

end Operations

/-! ### What an instruction answers -/

/-- The answers past which every state has `P`: a refusal, a fault that carries such a state, and the move from such
a state to the next instruction. -/
inductive Answers (P : State → Prop) : Result → Prop where
  | refused (r : Refusal) : Answers P (.refused r)
  | fault (f : Fault) (h : P f.state) : Answers P (.fault f)
  | next (x : State) (h : P x) : Answers P (.next (advance x))

namespace Answers

variable {P Q : State → Prop} {r : Result}

theorem mono (h : Answers P r) (hPQ : ∀ x, P x → Q x) : Answers Q r := by
  cases h with
  | refused q => exact .refused q
  | fault f hf => exact .fault f (hPQ _ hf)
  | next x hx => exact .next x (hPQ _ hx)

/-- Counting a draw commutes with moving on. -/
theorem afterChoice (h : Answers P r) (hdrawn : ∀ x, P x → P (drawn 1 x)) : Answers P (afterChoice r) := by
  cases h with
  | refused q => exact .refused q
  | fault f hf => exact .fault f hf
  | next x hx => exact .next (Machine.drawn 1 x) (hdrawn x hx)

end Answers

section Operations

variable (t : Transfer) (s : State)

theorem transfer_answers : Answers (RegisterWrites t.WritesBack s) (transfer t s) := by
  obtain h | ⟨kind, addr, h⟩ | ⟨addr, h⟩ | ⟨ws, h⟩ := transfer_cases t s <;> rw [h]
  · exact .refused _
  · exact .fault _ (abortState_writes t s)
  · exact .refused _
  · exact .next _ ((loadList_writes t s ws).trans (writeBase_writes t s _))

theorem checkedTransfer_answers : Answers (RegisterWrites t.WritesBack s) (checkedTransfer t s) := by
  obtain h | h | h | h := checkedTransfer_cases t s <;> rw [h]
  · exact .refused _
  · exact .fault _ .refl
  · exact .fault _ .refl
  · exact transfer_answers t s

theorem noRegsCase_answers : Answers (RegisterWrites t.WritesBack s) (noRegsCase t s) := by
  obtain h | h | ⟨j, h⟩ | h | h := noRegsCase_cases t s <;> rw [h]
  · exact .refused _
  · exact .fault _ .refl
  · exact .next _ (.drawn j)
  · exact checkedTransfer_answers t s
  · exact (checkedTransfer_answers t s).afterChoice fun _ hx => hx.trans (.drawn 1)

theorem unknownRangeCase_answers : Answers (RegisterWrites t.WritesBack s) (unknownRangeCase t s) := by
  have hrange := RegisterWrites.trans (.drawn 2) (unknownRange_writes t (drawn 2 s))
  obtain ⟨kind, addr, h⟩ | h := unknownRangeCase_cases t s <;> rw [h]
  · exact .fault _ hrange
  · exact .next _ hrange

theorem rangeCase_answers : Answers (RegisterWrites t.WritesBack s) (rangeCase t s) := by
  obtain h | h | ⟨j, h⟩ | ⟨j, h⟩ := rangeCase_cases t s <;> rw [h]
  · exact .refused _
  · exact .fault _ .refl
  · exact .next _ (.drawn j)
  · exact (unknownRangeCase_answers t (drawn j s)).mono fun _ hx => .trans (.drawn j) hx

theorem unpredictableChecks_answers : Answers (RegisterWrites t.WritesBack s) (unpredictableChecks t s) := by
  obtain ⟨-, h⟩ | ⟨-, h | h | h | h⟩ := unpredictableChecks_cases t s <;> rw [h]
  · exact .refused _
  · exact .refused _
  · exact noRegsCase_answers t s
  · exact rangeCase_answers t s
  · exact checkedTransfer_answers t s

end Operations

/-- The condition adds a skip and refusals to what its body answers (R29, R91). -/
theorem conditional_answers {base : BitVec 4 → Prop} (c : BitVec 4) (s : State) {body : Result}
    (h : Answers (RegisterWrites base s) body) : Answers (RegisterWrites base s) (conditional c s body) := by
  obtain ⟨-, e⟩ | ⟨-, e⟩ | e | e := conditional_cases c s body <;> rw [e]
  · exact h
  · exact .next _ .refl
  · exact .refused _
  · exact .refused _

/-- `R[m]` is the base register of a word with writeback (R21). -/
def WritesBack (i : Instr) (m : BitVec 4) : Prop := ∃ t, transferOf i = some t ∧ t.WritesBack m

/-- Everything an instruction can answer: no register but those of its write set differs. -/
theorem exec_answers (i : Instr) (s : State) : Answers (RegisterWrites (WritesBack i) s) (exec i s) := by
  cases hr : isRedirected i s with
  | true =>
    obtain ⟨r, h⟩ := exec_of_redirected hr
    rw [h]
    exact .refused r
  | false =>
    obtain ⟨t, ht⟩ | hu := transfer_or_undefined hr
    · rw [exec_of_executes ⟨ht, hr⟩]
      refine conditional_answers _ s ((unpredictableChecks_answers t s).mono fun _ hx => ?_)
      exact hx.mono fun m hm => ⟨t, ht, hm⟩
    · rw [exec_of_undefinedWord s hu]
      exact conditional_answers _ s (.fault _ .refl)

/-- A next state is the move past the instruction from a state that differs in the write set only. -/
theorem exec_next {i : Instr} {s u : State} (h : exec i s = .next u) :
    ∃ x, RegisterWrites (WritesBack i) s x ∧ u = advance x := by
  have ha := exec_answers i s
  rw [h] at ha
  cases ha with
  | next x hx => exact ⟨x, hx, rfl⟩

/-- The state of a fault differs in the write set only. -/
theorem exec_fault {i : Instr} {s : State} {f : Fault} (h : exec i s = .fault f) :
    RegisterWrites (WritesBack i) s f.state := by
  have ha := exec_answers i s
  rw [h] at ha
  cases ha with
  | fault _ hf => exact hf

/-! ### The statements over all outcomes -/

section

variable {base : BitVec 4 → Prop} {s x : State}

theorem RegisterWrites.sameElsewhere (h : RegisterWrites base s x) : SameElsewhere s x := by
  rw [h.frame]
  constructor <;> rfl

theorem SameElsewhere.sameBytes (h : SameElsewhere s x) : SameBytes s x :=
  fun a => congrArg (Memory.read · a.toNat) h.mem

theorem SameElsewhere.advance (h : SameElsewhere s x) : SameElsewhere s (advance x) := { h with }

theorem RegisterWrites.movesOn (h : RegisterWrites base s x) : MovesOn s (Machine.advance x) := by
  apply movesOn_advance <;> rw [h.frame]

end

/-- Settles O47: the write set has neither `pc` nor `ITSTATE`, so only the move to the next instruction changes them. -/
theorem nextMovesOnAndFaultStays : Obligations.NextMovesOnAndFaultStays := by
  intro i s
  refine ⟨fun u h => ?_, fun f h => ?_⟩
  · obtain ⟨x, hx, rfl⟩ := exec_next h
    exact hx.movesOn
  · rw [(exec_fault h).frame]

/-- Settles O48: the frame of the write set, past the move to the next instruction. -/
theorem nothingOutsideTheWriteSetChanges : Obligations.NothingOutsideTheWriteSetChanges := by
  intro i s
  refine ⟨fun u h => ?_, fun f h => ?_⟩
  · obtain ⟨x, hx, rfl⟩ := exec_next h
    exact ⟨hx.sameElsewhere.advance, hx.sameElsewhere.advance.sameBytes⟩
  · have hsame := (exec_fault h).sameElsewhere
    exact ⟨hsame, hsame.sameBytes⟩

/-- Settles O49: moving on keeps the registers, and the write set names the base register alone. -/
theorem onlyTheBaseRegisterChanges : Obligations.OnlyTheBaseRegisterChanges := by
  intro i s u m h hm hne
  obtain h | ⟨f, h, rfl⟩ := h
  · obtain ⟨x, hx, rfl⟩ := exec_next h
    rw [readReg_congr (advance_regs x) hm] at hne
    exact hx.reads m hm hne
  · exact (exec_fault h).reads m hm hne

end Sys2Proof.Machine
end

section
/-!
PROOFS. The program counter at the fetch (10_state.md R24) and the invariant of the machine (R24, R29, R30, R35).
-/
namespace Sys2Proof.Machine

/-! ### Alignment -/

/-- What the program counter is a multiple of (R24). -/
def pcUnit : InstrSet → Nat
  | .a32 => 4
  | .t32 => 2

theorem pcUnit_dvd_four (set : InstrSet) : pcUnit set ∣ 4 := by
  cases set <;> decide

/-- The test of the low bits is divisibility (R24). -/
theorem pcAligned_iff (s : State) : pcAligned s = true ↔ pcUnit s.iset ∣ s.pc.toNat := by
  rw [Nat.dvd_iff_mod_eq_zero]
  unfold pcAligned
  cases s.iset <;> simp [pcUnit, ← BitVec.toNat_inj, BitVec.extractLsb'_toNat]

/-- `pc + 4` modulo 2^32 is aligned where `pc` is (R24). -/
theorem pcAligned_advance {s : State} (h : pcAligned s = true) : pcAligned (advance s) = true := by
  rw [pcAligned_iff] at h ⊢
  have hfour := pcUnit_dvd_four s.iset
  rw [advance_iset, advance_pc, BitVec.toNat_add]
  exact (Nat.dvd_mod_iff (hfour.trans (by decide))).mpr (Nat.dvd_add h hfour)

theorem pcAligned_congr {s x : State} (hi : x.iset = s.iset) (hp : x.pc = s.pc) : pcAligned x = pcAligned s := by
  simp [pcAligned, hi, hp]

/-! ### The fetch -/

theorem step_pcMisaligned {s : State} (h : pcAligned s = false) : step s = .refused .pcMisaligned := by
  simp [step, fetch, h]

theorem step_pcWraps {s : State} (ha : pcAligned s = true) (hw : 2 ^ 32 ≤ s.pc.toNat + 4) :
    step s = .refused .pcWraps := by
  have hfits : pcFits s = false := by simp [pcFits]; omega
  simp [step, fetch, ha, hfits]

/-- A step that completes is an instruction at an aligned program counter. -/
theorem step_next {s u : State} (h : step s = .next u) : pcAligned s = true ∧ ∃ i, exec i s = .next u := by
  cases ha : pcAligned s with
  | false => simp [step_pcMisaligned ha] at h
  | true =>
    refine ⟨rfl, ?_⟩
    unfold step at h
    split at h
    · cases h
    · exact ⟨_, h⟩

/-- A completing step moves past the instruction from a state that differs in registers only. -/
theorem step_moves {s u : State} (h : step s = .next u) : SameElsewhere s u ∧ MovesOn s u := by
  obtain ⟨-, i, hexec⟩ := step_next h
  exact ⟨((nothingOutsideTheWriteSetChanges i s).1 u hexec).1, (nextMovesOnAndFaultStays i s).1 u hexec⟩

theorem step_pcAligned {s u : State} (h : step s = .next u) : pcAligned u = true := by
  obtain ⟨hsame, hpc, -⟩ := step_moves h
  rw [pcAligned_congr (x := u) (s := advance s) hsame.iset hpc]
  exact pcAligned_advance (step_next h).1

/-- Settles O53: the fetch tests the remainder of `pc` and then its sum with 4, and that sum keeps the remainder. -/
theorem pcAlignmentRefusedOrPreserved : Obligations.PcAlignmentRefusedOrPreserved := by
  intro s
  have haligned (k : Nat) (hk : pcUnit s.iset = k) : pcAligned s = true ↔ s.pc.toNat % k = 0 := by
    rw [pcAligned_iff, hk, Nat.dvd_iff_mod_eq_zero]
  have ha32 (hi : s.iset = .a32) := haligned 4 (congrArg pcUnit hi)
  have ht32 (hi : s.iset = .t32) := haligned 2 (congrArg pcUnit hi)
  refine ⟨fun hi hpc => ?_, fun hi hpc => ?_, fun hi hpc hw => ?_, fun hi hpc hw => ?_, fun u h => ?_⟩
  · exact step_pcMisaligned (Bool.eq_false_iff.mpr (mt (ha32 hi).mp hpc))
  · exact step_pcMisaligned (Bool.eq_false_iff.mpr (mt (ht32 hi).mp hpc))
  · exact step_pcWraps ((ha32 hi).mpr hpc) hw
  · exact step_pcWraps ((ht32 hi).mpr hpc) hw
  · exact ⟨(step_next h).1, step_pcAligned h⟩

/-! ### The invariant -/

/-- `ITAdvance()` never gives the UNPREDICTABLE value: a mask whose low three bits are not all zero keeps a bit
(R29, R30). -/
theorem itAdvance_eq_zero_or (it : BitVec 8) : itAdvance it = 0#8 ∨ (itAdvance it).extractLsb' 0 4 ≠ 0#4 := by
  have hshift := itAdvanceShiftsTheMask it
  simp only [← BitVec.toNat_inj, BitVec.extractLsb'_toNat, ne_eq]
  split at hshift
  · exact .inl hshift
  · right
    simp
    omega

theorem itLegal_advance {s : State} (h : itLegal s = true) : itLegal (advance s) = true := by
  unfold itLegal at h ⊢
  rw [advance_iset, advance_itstate]
  cases hi : s.iset with
  | a32 => simpa [hi] using h
  | t32 => simpa using itAdvance_eq_zero_or s.itstate

theorem itLegal_congr {s x : State} (hi : x.iset = s.iset) (ht : x.itstate = s.itstate) : itLegal x = itLegal s := by
  simp [itLegal, hi, ht]

/-- Settles O54: a completing step moves `pc` by 4 and advances `ITSTATE`, which keeps both legal, and leaves
memory alone. -/
theorem everyStepKeepsTheInvariant : Obligations.EveryStepKeepsTheInvariant := by
  intro s u hinv h
  obtain ⟨hsame, -, hit⟩ := step_moves h
  refine ⟨step_pcAligned h, ?_, ?_⟩
  · have : u.itstate = (advance s).itstate := by rw [hit, advance_eq]
    rw [itLegal_congr (s := advance s) hsame.iset this]
    exact itLegal_advance hinv.it
  · rw [hsame.mem]
    exact hinv.mem

end Sys2Proof.Machine
end

section
/-!
PROOFS. DIT and FPSCR decide nothing (10_state.md R34, R39; logs 24, 26, 31): every operation commutes with a
change of them.
-/
namespace Sys2Proof.Machine

/-- Other values of DIT and FPSCR. -/
def setDitFpscr (b : Bool) (v : Word) (s : State) : State := { s with dit := b, fpscr := v }

section Operations

variable (b : Bool) (v : Word) (t : Transfer) (s : State)

/-! ### Registers -/

theorem loadSingles_setDitFpscr (d : Nat) (ws : List Word) :
    loadSingles d ws (setDitFpscr b v s) = setDitFpscr b v (loadSingles d ws s) := by
  induction ws generalizing d s with
  | nil => rfl
  | cons w ws ih => exact ih (writeS d w s) (d + 1)

theorem loadDoubles_setDitFpscr (d : Nat) (ws : List Word) :
    loadDoubles d ws (setDitFpscr b v s) = setDitFpscr b v (loadDoubles d ws s) := by
  induction d, ws, s using loadDoubles.induct with
  | case1 d s w1 w2 ws ih => exact ih
  | case2 d s ws h => rw [loadDoubles, loadDoubles] <;> exact h

theorem loadList_setDitFpscr (ws : List Word) :
    loadList t ws (setDitFpscr b v s) = setDitFpscr b v (loadList t ws s) := by
  unfold loadList
  split
  · exact loadSingles_setDitFpscr b v s t.d ws
  · exact loadDoubles_setDitFpscr b v s t.d ws

theorem unknownSingles_setDitFpscr (d k : Nat) :
    unknownSingles d k (setDitFpscr b v s) = setDitFpscr b v (unknownSingles d k s) := by
  induction k generalizing d s with
  | zero => rfl
  | succ k ih => exact ih (drawn 1 (writeS d (Config.freeWord s.draws) s)) (d + 1)

theorem unknownDoubles_setDitFpscr (d k : Nat) :
    unknownDoubles d k (setDitFpscr b v s) = setDitFpscr b v (unknownDoubles d k s) := by
  induction k generalizing d s with
  | zero => rfl
  | succ k ih => exact ih (drawn 1 (writeD d (Config.freeDouble s.draws) s)) (d + 1)

theorem abortState_setDitFpscr : abortState t (setDitFpscr b v s) = setDitFpscr b v (abortState t s) := by
  unfold abortState
  split
  · exact unknownSingles_setDitFpscr b v (drawn 1 s) t.d t.regs
  · exact unknownDoubles_setDitFpscr b v (drawn 1 s) t.d t.regs

theorem writeBase_setDitFpscr (base : State) :
    writeBase t (setDitFpscr b v base) (setDitFpscr b v s) = setDitFpscr b v (writeBase t base s) := by
  unfold writeBase
  split <;> rfl

theorem unknownRange_setDitFpscr : unknownRange t (setDitFpscr b v s) = setDitFpscr b v (unknownRange t s) := by
  unfold unknownRange
  dsimp only
  rw [unknownDoubles_setDitFpscr]
  split <;> rfl

/-! ### Reads of memory -/

theorem memRead_setDitFpscr (a : Word) : memRead a (setDitFpscr b v s) = memRead a s := by
  have hadmit : memAdmit a (setDitFpscr b v s) = memAdmit a s := memAdmit_dit_fpscr a s b v
  unfold memRead
  rw [hadmit]
  rfl

theorem accesses_setDitFpscr : accesses t (setDitFpscr b v s) = accesses t s :=
  List.map_congr_left fun a _ => memRead_setDitFpscr b v s a

/-! ### The Operation -/

theorem failTransfer_setDitFpscr (f : ReadFailure) :
    failTransfer t f (setDitFpscr b v s) = mapStates (setDitFpscr b v) (failTransfer t f s) := by
  cases f with
  | abort kind addr => simp only [failTransfer, abortState_setDitFpscr]; rfl
  | outside addr => rfl

theorem transfer_setDitFpscr : transfer t (setDitFpscr b v s) = mapStates (setDitFpscr b v) (transfer t s) := by
  have htop : crossesTop t (setDitFpscr b v s) = crossesTop t s := rfl
  unfold transfer
  rw [htop, accesses_setDitFpscr]
  split
  · rfl
  · split
    · exact failTransfer_setDitFpscr b v t s _
    · rw [loadList_setDitFpscr, writeBase_setDitFpscr]
      rfl

theorem checkedTransfer_setDitFpscr :
    checkedTransfer t (setDitFpscr b v s) = mapStates (setDitFpscr b v) (checkedTransfer t s) := by
  have haccess : fpAccess (setDitFpscr b v s) = fpAccess s := rfl
  unfold checkedTransfer
  rw [haccess]
  split
  · rfl
  · rfl
  · rfl
  · exact transfer_setDitFpscr b v t s

theorem afterChoice_mapStates (r : Result) :
    afterChoice (mapStates (setDitFpscr b v) r) = mapStates (setDitFpscr b v) (afterChoice r) := by
  cases r with
  | next u => rfl
  | fault f => cases f <;> rfl
  | refused q => rfl

theorem noRegsCase_setDitFpscr :
    noRegsCase t (setDitFpscr b v s) = mapStates (setDitFpscr b v) (noRegsCase t s) := by
  have hparams : (setDitFpscr b v s).params = s.params := rfl
  have hdraws : (setDitFpscr b v s).draws = s.draws := rfl
  unfold noRegsCase
  rw [hparams, hdraws, checkedTransfer_setDitFpscr, afterChoice_mapStates]
  cases s.params.cuRegs0 with
  | anyListed => dsimp only; split_ifs <;> rfl
  | _ => rfl

theorem unknownRangeCase_setDitFpscr :
    unknownRangeCase t (setDitFpscr b v s) = mapStates (setDitFpscr b v) (unknownRangeCase t s) := by
  have hrange : unknownRange t (drawn 2 (setDitFpscr b v s)) = setDitFpscr b v (unknownRange t (drawn 2 s)) :=
    unknownRange_setDitFpscr b v t (drawn 2 s)
  have hdraws : (setDitFpscr b v s).draws = s.draws := rfl
  unfold unknownRangeCase
  rw [hrange, hdraws]
  split <;> rfl

theorem rangeCase_setDitFpscr :
    rangeCase t (setDitFpscr b v s) = mapStates (setDitFpscr b v) (rangeCase t s) := by
  have hparams : (setDitFpscr b v s).params = s.params := rfl
  have hdraws : (setDitFpscr b v s).draws = s.draws := rfl
  have hdrawn : unknownRangeCase t (drawn 1 (setDitFpscr b v s)) =
      mapStates (setDitFpscr b v) (unknownRangeCase t (drawn 1 s)) :=
    unknownRangeCase_setDitFpscr b v t (drawn 1 s)
  unfold rangeCase
  rw [hparams, hdraws, hdrawn, unknownRangeCase_setDitFpscr]
  cases s.params.cuRange with
  | anyListed => dsimp only; split_ifs <;> rfl
  | _ => rfl

theorem unpredictableChecks_setDitFpscr :
    unpredictableChecks t (setDitFpscr b v s) = mapStates (setDitFpscr b v) (unpredictableChecks t s) := by
  have hbase : pcBaseUnpredictable t (setDitFpscr b v s) = pcBaseUnpredictable t s := rfl
  unfold unpredictableChecks
  rw [hbase, noRegsCase_setDitFpscr, rangeCase_setDitFpscr, checkedTransfer_setDitFpscr]
  split_ifs <;> rfl

theorem conditional_setDitFpscr (c : BitVec 4) (body : Result) :
    conditional c (setDitFpscr b v s) (mapStates (setDitFpscr b v) body) =
      mapStates (setDitFpscr b v) (conditional c s body) := by
  have hcond : currentCond c (setDitFpscr b v s) = currentCond c s := rfl
  have hholds (cond : BitVec 4) : conditionHolds cond (setDitFpscr b v s) = conditionHolds cond s := rfl
  unfold conditional
  rw [hcond]
  split
  · rfl
  · rw [hholds]
    split_ifs <;> rfl

theorem execTransfer_setDitFpscr :
    execTransfer t (setDitFpscr b v s) = mapStates (setDitFpscr b v) (execTransfer t s) := by
  unfold execTransfer
  rw [unpredictableChecks_setDitFpscr, conditional_setDitFpscr]

end Operations

/-- Under ODD_IMM8 = refuse an odd-imm8 word is refused as FLDM*X (R73). -/
theorem execOdd_refuse (t : Transfer) {s : State} (h : s.params.oddImm8 = .refuse) :
    execOdd t s = .refused (.redirect .fldmx) := by
  simp only [execOdd, h]

/-- The refusal of a redirected word depends on the parameters only (R70, R73). -/
theorem exec_redirected_congr {i : Instr} {s u : State} (hp : u.params = s.params) (h : isRedirected i s = true) :
    exec i u = exec i s := by
  cases i with
  | seeRelatedA32 | seeRelatedT32 | seeVldrA32 | seeVldrT32 => rfl
  | fldmxA1Ia | fldmxA1Db | fldmxT1Ia | fldmxT1Db =>
    have hs : s.params.oddImm8 = .refuse := eq_of_beq h
    exact (execOdd_refuse _ (hp ▸ hs)).trans (execOdd_refuse _ hs).symm
  | _ => cases h

/-- Settles O50: a redirected word is refused alike, and the Operation and the UNDEFINED words commute with the
change. -/
theorem ditAndFpscrDecideNothing : Obligations.DitAndFpscrDecideNothing := by
  intro i s b v
  change exec i (setDitFpscr b v s) = mapStates (setDitFpscr b v) (exec i s)
  cases hr : isRedirected i s with
  | true =>
    obtain ⟨r, h⟩ := exec_of_redirected hr
    have hsame : exec i (setDitFpscr b v s) = exec i s := exec_redirected_congr rfl hr
    rw [hsame, h]
    rfl
  | false =>
    have hr' : isRedirected i (setDitFpscr b v s) = false := hr
    obtain ⟨t, ht⟩ | hu := transfer_or_undefined hr
    · rw [exec_of_executes ⟨ht, hr⟩, exec_of_executes ⟨ht, hr'⟩]
      exact execTransfer_setDitFpscr b v t s
    · rw [exec_of_undefinedWord s hu, exec_of_undefinedWord _ hu]
      exact conditional_setDitFpscr b v s _ (.fault (.undefinedInstruction s))

end Sys2Proof.Machine
end

section
/-!
PROOFS. The decoder and the encoder (30_encoding.md R60, R61, R63, R69, R73, R76, R85).
-/
namespace Sys2Proof

/-! ### The bytes of a pattern: byte `k` of four bytes joined is the `k`-th from the right (R53) -/

section Bytes

variable (b3 b2 b1 b0 : Byte)

@[simp] theorem patternByte_join_zero : patternByte (b3 ++ b2 ++ b1 ++ b0) 0 = b0 := by
  unfold patternByte
  rw [BitVec.extractLsb'_append_eq_of_add_le (by decide)]
  simp

@[simp] theorem patternByte_join_one : patternByte (b3 ++ b2 ++ b1 ++ b0) 1 = b1 := by
  unfold patternByte
  rw [BitVec.extractLsb'_append_eq_of_le (by decide), BitVec.extractLsb'_append_eq_of_add_le (by decide)]
  simp

@[simp] theorem patternByte_join_two : patternByte (b3 ++ b2 ++ b1 ++ b0) 2 = b2 := by
  unfold patternByte
  rw [BitVec.extractLsb'_append_eq_of_le (by decide), BitVec.extractLsb'_append_eq_of_le (by decide),
    BitVec.extractLsb'_append_eq_of_add_le (by decide)]
  simp

@[simp] theorem patternByte_join_three : patternByte (b3 ++ b2 ++ b1 ++ b0) 3 = b3 := by
  unfold patternByte
  rw [BitVec.extractLsb'_append_eq_of_le (by decide), BitVec.extractLsb'_append_eq_of_le (by decide),
    BitVec.extractLsb'_append_eq_of_le (by decide)]
  simp

end Bytes

/-- A pattern with the fixed bits is the one packed from its fields (R61, R63). -/
theorem pack_fields {w : Word} (h : hasFixedBits w = true) :
    pack (fieldCond w) (fieldP w) (fieldU w) (fieldD w) (fieldW w) (fieldRn w) (fieldVd w) (fieldSize w)
      (fieldImm8 w) = w := by
  simp only [hasFixedBits, Bool.and_eq_true, beq_iff_eq] at h
  obtain ⟨⟨hop, hload⟩, hunit⟩ := h
  unfold pack
  rw [← hop, ← hload, ← hunit]
  unfold fieldCond fieldOp fieldP fieldU fieldD fieldW fieldLoad fieldRn fieldVd fieldUnit fieldSize fieldImm8
  repeat rw [BitVec.extractLsb'_append_extractLsb'_eq_extractLsb' (by rfl)]
  exact BitVec.extractLsb'_eq_self

/-! ### The classes of `P U W` (R69) -/

@[simp] theorem puwClass_related : puwClass 0#1 0#1 0#1 = .related := rfl
@[simp] theorem puwClass_undefined001 : puwClass 0#1 0#1 1#1 = .undefined001 := rfl
@[simp] theorem puwClass_undefined111 : puwClass 1#1 1#1 1#1 = .undefined111 := rfl
@[simp] theorem puwClass_decrementBefore : puwClass 1#1 0#1 1#1 = .decrementBefore := rfl
@[simp] theorem puwClass_vldr (u : BitVec 1) : puwClass 1#1 u 0#1 = .vldr := by revert u; decide
@[simp] theorem puwClass_incrementAfter (w : BitVec 1) : puwClass 0#1 1#1 w = .incrementAfter := by revert w; decide

/-- The values of the three bits: those of a transfer in the two directions, then those of the four other classes. -/
theorem puw_cases (p u w : BitVec 1) :
    (p = 0#1 ∧ u = 1#1) ∨ (p = 1#1 ∧ u = 0#1 ∧ w = 1#1) ∨
    (p = 0#1 ∧ u = 0#1 ∧ w = 0#1) ∨ (p = 0#1 ∧ u = 0#1 ∧ w = 1#1) ∨ (p = 1#1 ∧ w = 0#1) ∨
    (p = 1#1 ∧ u = 1#1 ∧ w = 1#1) := by
  revert p u w; decide

/-! ### The side conditions of a row, by the decoder's own tests -/

@[simp] theorem condition_iff (cond : BitVec 4) : WellFormed.condition cond = true ↔ cond ≠ 0b1111#4 := by
  simp [WellFormed.condition]

@[simp] theorem evenImm_eq_not_isOdd (imm8 : BitVec 8) : WellFormed.evenImm imm8 = !isOdd imm8 := by
  unfold WellFormed.evenImm isOdd
  obtain h | h := BitVec.eq_zero_or_eq_one (imm8.extractLsb' 0 1) <;> rw [h] <;> rfl

@[simp] theorem oddImm_eq_isOdd (imm8 : BitVec 8) : WellFormed.oddImm imm8 = isOdd imm8 := rfl

@[simp] theorem notPop_eq_not_isPop (wBit : BitVec 1) (rn : BitVec 4) :
    WellFormed.notPop wBit rn = !isPop wBit rn := rfl

@[simp] theorem isPop_vpop : isPop 1#1 0b1101#4 = true := rfl

theorem eq_of_isPop {wBit : BitVec 1} {rn : BitVec 4} (h : isPop wBit rn = true) : wBit = 1#1 ∧ rn = 0b1101#4 := by
  simpa [isPop] using h

/-! ### The decoder on patterns -/

/-- The instruction that the fields of a pattern name, in either instruction set. -/
def decodeFields (set : InstrSet) (w : Word) : Instr :=
  match set with
  | .a32 => decodeFieldsA32 w
  | .t32 => decodeFieldsT32 w

/-- Bits 31:28 of a pattern: a condition other than 1111 in A32 (R61), 1110 in T32 (R63). -/
def TopBits : InstrSet → BitVec 4 → Prop
  | .a32, top => top ≠ 0b1111#4
  | .t32, top => top = 0b1110#4

theorem decodeA32_eq_instr_iff {w : Word} {rest rest' : List Byte} {i : Instr} :
    decodeA32 w rest' = .instr i rest ↔
      rest' = rest ∧ TopBits .a32 (fieldCond w) ∧ hasFixedBits w = true ∧ decodeFields .a32 w = i := by
  unfold decodeA32 TopBits decodeFields
  split_ifs with hcond hfixed
  · simp [hcond]
  · simp [hcond, hfixed, and_comm]
  · simp [hfixed]

theorem decodeT32_eq_instr_iff {w : Word} {rest rest' : List Byte} {i : Instr} :
    decodeT32 w rest' = .instr i rest ↔
      rest' = rest ∧ TopBits .t32 (fieldCond w) ∧ hasFixedBits w = true ∧ decodeFields .t32 w = i := by
  unfold decodeT32 TopBits decodeFields
  split_ifs with h
  · simp [h, and_comm]
  · simp only [false_iff]
    exact fun ⟨_, htop, hfixed, _⟩ => h ⟨htop, hfixed⟩

/-- The decoder accepts exactly the bytes of a pattern with the fixed bits, and answers with its fields (R53,
R60, R77). -/
theorem decode_eq_instr_iff {set : InstrSet} {bytes rest : List Byte} {i : Instr} :
    decode set bytes = .instr i rest ↔
      ∃ w, bytes = patternBytes set w ++ rest ∧ TopBits set (fieldCond w) ∧ hasFixedBits w = true ∧
        decodeFields set w = i := by
  constructor
  · intro h
    unfold decode at h
    split at h
    next b0 b1 b2 b3 tail =>
      obtain ⟨rfl, hw⟩ := decodeA32_eq_instr_iff.mp h
      exact ⟨b3 ++ b2 ++ b1 ++ b0, by simp [patternBytes], hw⟩
    next => cases h
    next b0 b1 tail =>
      split_ifs at h
      split at h
      next b2 b3 tail =>
        obtain ⟨rfl, hw⟩ := decodeT32_eq_instr_iff.mp h
        exact ⟨b1 ++ b0 ++ b3 ++ b2, by simp [patternBytes], hw⟩
      next => cases h
    next => cases h
  · rintro ⟨w, rfl, hw⟩
    cases set with
    | a32 =>
      rw [decode_patternBytes_a32]
      exact decodeA32_eq_instr_iff.mpr ⟨rfl, hw⟩
    | t32 =>
      have ⟨htop, hfixed, _⟩ := hw
      have hop : fieldOp w = 0b110#3 := by simp_all [hasFixedBits]
      rw [decode_patternBytes_t32 w rest htop hop]
      exact decodeT32_eq_instr_iff.mpr ⟨rfl, hw⟩

/-! ### From an instruction to its pattern and back -/

/-- The pattern of an instruction has the fixed bits. -/
theorem hasFixedBits_encode (i : Instr) : hasFixedBits (encode i) = true := by
  cases i <;> exact hasFixedBits_pack ..

theorem topBits_encode {i : Instr} (h : WellFormed i) : TopBits i.instrSet (fieldCond (encode i)) := by
  cases i <;> simp_all [WellFormed, WellFormed.check, TopBits, Instr.instrSet, encode]

/-- The fields of an instruction's pattern name the instruction: the class of `P U W` finds its row, and the side
conditions decide the tests of `imm8` and of VPOP among the rows that share a class and a size. -/
theorem decodeFields_encode {i : Instr} (h : WellFormed i) : decodeFields i.instrSet (encode i) = i := by
  unfold WellFormed WellFormed.check at h
  unfold decodeFields decodeFieldsA32 decodeFieldsT32
  cases i with
  | vldmA1 | vldmT1 | vldmA2 | vldmT2 | vldmdbA1 | vldmdbT1 | vpopA1 | vpopT1 | fldmxA1Ia | fldmxA1Db | fldmxT1Ia
  | fldmxT1Db => simp_all [Instr.instrSet, encode]
  | _ => simp [Instr.instrSet, encode]

/-- `i` stands for the pattern `w`: it is a well-formed instruction of the set, and `w` is its encoding. -/
structure StandsFor (set : InstrSet) (i : Instr) (w : Word) : Prop where
  wellFormed : WellFormed i
  instrSet   : i.instrSet = set
  encode     : encode i = w

/-- The fields of a pattern name an instruction that stands for it: the class gives `P`, `U` and (but for Increment
After) `W`, and the tests of the size, `imm8` and VPOP give what else is fixed in the row. -/
theorem decodeFields_standsFor {set : InstrSet} {w : Word} (htop : TopBits set (fieldCond w))
    (hfixed : hasFixedBits w = true) : StandsFor set (decodeFields set w) w := by
  have hw := pack_fields hfixed
  have hsize := BitVec.eq_zero_or_eq_one (fieldSize w)
  have hpop := @eq_of_isPop (fieldW w) (fieldRn w)
  unfold TopBits at htop
  unfold decodeFields decodeFieldsA32 decodeFieldsT32
  obtain h | h | h | h | h | h := puw_cases (fieldP w) (fieldU w) (fieldW w)
  · simp only [h, puwClass_incrementAfter]
    cases set <;> split_ifs <;> exact ⟨by simp_all [WellFormed, WellFormed.check], rfl, by simp_all [encode]⟩
  · simp only [h, puwClass_decrementBefore]
    cases set <;> split_ifs <;> exact ⟨by simp_all [WellFormed, WellFormed.check], rfl, by simp_all [encode]⟩
  all_goals
    simp only [h, puwClass_related, puwClass_undefined001, puwClass_undefined111, puwClass_vldr]
    cases set <;> exact ⟨by simp_all [WellFormed, WellFormed.check], rfl, by simp_all [encode]⟩

/-- Settles O2: the pattern of a well-formed instruction is one the decoder accepts, and its fields name the
instruction. -/
theorem decodeInvertsEncode : Obligations.DecodeInvertsEncode := fun i _ h =>
  decode_eq_instr_iff.mpr ⟨encode i, rfl, topBits_encode h, hasFixedBits_encode i, decodeFields_encode h⟩

/-- Settles O3: what the decoder accepts are the bytes of a pattern, and the instruction it answers stands for that
pattern. -/
theorem encodeInvertsDecode : Obligations.EncodeInvertsDecode := by
  intro set bytes rest i h
  obtain ⟨w, rfl, htop, hfixed, rfl⟩ := decode_eq_instr_iff.mp h
  obtain ⟨hwf, hset, henc⟩ := decodeFields_standsFor htop hfixed
  exact ⟨hwf, hset, by rw [encodeBytes, hset, henc]⟩

/-- Settles O1: an evaluation of the decoder on twelve fixed words. -/
theorem writtenWordsDecode : Obligations.WrittenWordsDecode := by
  unfold Obligations.WrittenWordsDecode
  decide

end Sys2Proof
end

section
/-!
PROOFS. The word read and its byte order (20_memory.md R42, R43, R45, R46, R48).
-/
namespace Sys2Proof.Machine

variable {s : State}

/-! ### Byte order -/

/-- Little-endian, byte `k` of a word from the least significant end is the one at `a + k` (R43). -/
theorem patternByte_wordAt_little (h : s.e = false) (a : Word) {k : Nat} (hk : k < 4) :
    patternByte (wordAt a s) k = readByte (a + BitVec.ofNat 32 k) s := by
  simp only [wordAt, h, Bool.false_eq_true, if_false]
  interval_cases k <;> simp

/-- Big-endian, byte `k` of a word from the most significant end is the one at `a + k` (R43). -/
theorem patternByte_wordAt_big (h : s.e = true) (a : Word) {k : Nat} (hk : k < 4) :
    patternByte (wordAt a s) (3 - k) = readByte (a + BitVec.ofNat 32 k) s := by
  simp only [wordAt, h, if_true]
  interval_cases k <;> simp

/-- Settles O13: the bytes 0 to 3 of a word in each order. -/
theorem wordByteOrder : Obligations.WordByteOrder := by
  refine fun a s => ⟨fun h => ?_, fun h => ?_⟩
  · have byte {k : Nat} (hk : k < 4) := patternByte_wordAt_little h a hk
    exact ⟨by simpa [patternByte] using byte (k := 0) (by decide), byte (k := 1) (by decide), byte (k := 2) (by decide),
      byte (k := 3) (by decide)⟩
  · have byte {k : Nat} (hk : k < 4) := patternByte_wordAt_big h a hk
    exact ⟨by simpa [patternByte] using byte (k := 0) (by decide), byte (k := 1) (by decide), byte (k := 2) (by decide),
      byte (k := 3) (by decide)⟩

/-- The bytes of the second word of a doubleword are those from the fifth on (R45). -/
theorem readByte_secondWord (a : Word) (s : State) {j : Nat} (hj : 4 ≤ j) :
    readByte (a + 4#32 + BitVec.ofNat 32 (j - 4)) s = readByte (a + BitVec.ofNat 32 j) s := by
  rw [BitVec.add_assoc, ← BitVec.ofNat_add, Nat.add_sub_cancel' hj]

/-- Settles O14: a byte of the doubleword lies in its first or in its second word, each read in the current order. -/
theorem doublewordByteOrder : Obligations.DoublewordByteOrder := by
  refine fun a s j hj => ⟨fun h => ?_, fun h => ?_⟩
  · simp only [doubleAt, joinWords, h, Bool.false_eq_true, if_false]
    obtain hlow | hhigh := Nat.lt_or_ge j 4
    · rw [BitVec.extractLsb'_append_eq_of_add_le (by omega)]
      exact patternByte_wordAt_little h a hlow
    · rw [BitVec.extractLsb'_append_eq_of_le (by omega), show 8 * j - 32 = 8 * (j - 4) by omega,
        ← readByte_secondWord a s hhigh]
      exact patternByte_wordAt_little h (a + 4#32) (by omega)
  · simp only [doubleAt, joinWords, h, if_true]
    obtain hlow | hhigh := Nat.lt_or_ge j 4
    · rw [BitVec.extractLsb'_append_eq_of_le (by omega), show 56 - 8 * j - 32 = 8 * (3 - j) by omega]
      exact patternByte_wordAt_big h a hlow
    · rw [BitVec.extractLsb'_append_eq_of_add_le (by omega), show 56 - 8 * j = 8 * (3 - (j - 4)) by omega,
        ← readByte_secondWord a s hhigh]
      exact patternByte_wordAt_big h (a + 4#32) (by omega)

/-! ### The word read -/

/-- The test of the two low bits is divisibility by 4 (R46). -/
theorem isWordAligned_iff (a : Word) : isWordAligned a = true ↔ a.toNat % 4 = 0 := by
  simp [isWordAligned, ← BitVec.toNat_inj, BitVec.extractLsb'_toNat]

theorem memRead_misaligned {a : Word} (h : isWordAligned a = false) :
    memRead a s = .failed (.abort .alignment a) := by
  simp [memRead, h]

theorem memRead_outside {a : Word} (ha : isWordAligned a = true) (hm : memAdmit a s = .outside) :
    memRead a s = .failed (.outside a) := by
  simp [memRead, ha, hm]

theorem memRead_abort {a : Word} {kind : MemoryAbort} (ha : isWordAligned a = true)
    (hm : memAdmit a s = .abort kind) : memRead a s = .failed (.abort (.memory kind) a) := by
  simp [memRead, ha, hm]

/-- Settles O15: one lemma per answer, the alignment as divisibility by 4. -/
theorem wordReadOutcomes : Obligations.WordReadOutcomes := by
  intro a s
  simp only [← isWordAligned_iff, ne_eq, Bool.not_eq_true]
  exact ⟨memRead_misaligned, memRead_outside, fun _ => memRead_abort, memRead_ok a s⟩

end Sys2Proof.Machine
end

section
/-!
PROOFS. One step is the instruction at the program counter (20_memory.md R53, R77).
-/
namespace Sys2Proof.Machine

variable {s : State}

/-- Past the tests of `pc` the fetch is the decoder on the four bytes there (R24, R53). -/
theorem step_of_decode_instr (ha : pcAligned s = true) (hf : s.pc.toNat + 4 < 2 ^ 32) {i : Instr} {rest : List Byte}
    (h : decode s.iset (fetchBytes s) = .instr i rest) : step s = exec i s := by
  have hfits : pcFits s = true := decide_eq_true hf
  simp [step, fetch, ha, hfits, h]

theorem step_of_decode_rejected (ha : pcAligned s = true) (hf : s.pc.toNat + 4 < 2 ^ 32) {e : DecodeError}
    (h : decode s.iset (fetchBytes s) = .rejected e) : step s = .refused (.undecodable e) := by
  have hfits : pcFits s = true := decide_eq_true hf
  simp [step, fetch, ha, hfits, h]

/-- Settles O52: both answers of the decoder. -/
theorem stepRunsTheDecodedInstruction : Obligations.StepRunsTheDecodedInstruction := fun _ ha hf =>
  ⟨fun _ _ => step_of_decode_instr ha hf, fun _ => step_of_decode_rejected ha hf⟩

/-- Settles O51: the fetch does not look at the byte order of data, and the decoder inverts the encoder. -/
theorem stepRunsTheInstructionAtPc : Obligations.StepRunsTheInstructionAtPc := by
  intro i s hwf hset ha hf hbytes
  have hfetch : fetchBytes s = encodeBytes i ++ [] := by
    rw [List.append_nil]
    exact hbytes
  refine step_of_decode_instr ha hf (rest := []) ?_
  rw [hset, hfetch]
  exact decodeInvertsEncode i [] hwf

end Sys2Proof.Machine
end

section
/-!
PROOFS. Transfers that stop: the top of memory, and word reads that fail (20_memory.md R46, R48, R50, R51, R52).
-/
namespace Sys2Proof.Machine

variable {t : Transfer} {s : State}

/-! ### A word with a legal list -/

/-- With the condition passed, a legal list and access enabled, lines 4 to 15 of R90 decide. -/
theorem exec_eq_transfer {i : Instr} (hx : Executes i t s) (hc : conditionPasses t.cond s = true) (hl : LegalList t s)
    (he : fpAccess s = some .enabled) : exec i s = transfer t s := by
  rw [exec_of_executes hx, execTransfer, conditional_passes _ hc, unpredictableChecks_legal hl]
  simp only [checkedTransfer, he]

/-- A list that has a register has a word. -/
theorem wordCount_pos (hl : LegalList t s) : 0 < wordCount t := by
  have hregs := hl.some
  unfold wordCount
  split <;> omega

theorem crossesTop_iff : crossesTop t s = true ↔ 2 ^ 32 < (startAddress t s).toNat + 4 * t.imm8.toNat :=
  decide_eq_true_iff

theorem crossesTop_eq_false_iff :
    crossesTop t s = false ↔ (startAddress t s).toNat + 4 * t.imm8.toNat ≤ 2 ^ 32 := by
  rw [← Bool.not_eq_true, crossesTop_iff, Nat.not_lt]

theorem transfer_crossesTop (h : crossesTop t s = true) : transfer t s = .refused .crossesTop := by
  simp [transfer, h]

/-- Settles O43: the word reaches the test of R50, which comes before the reads. -/
theorem rangeCrossingTheTopIsRefused : Obligations.RangeCrossingTheTopIsRefused := by
  intro i t s hx hc hl he htop
  rw [exec_eq_transfer hx hc hl he]
  exact transfer_crossesTop (crossesTop_iff.mpr htop)

/-! ### The word reads that fail -/

/-- Why a word read fails (R42, R46, R48). -/
theorem memRead_failed_cases {a : Word} {f : ReadFailure} (h : memRead a s = .failed f) :
    (isWordAligned a = false ∧ f = .abort .alignment a) ∨
    (∃ kind, memAdmit a s = .abort kind ∧ f = .abort (.memory kind) a) ∨
    (memAdmit a s = .outside ∧ f = .outside a) := by
  cases ha : isWordAligned a with
  | false =>
    rw [memRead_misaligned ha] at h
    exact .inl ⟨rfl, (Access.failed.inj h).symm⟩
  | true =>
    cases hm : memAdmit a s with
    | ok => rw [memRead_ok a s ha hm] at h; cases h
    | abort kind =>
      rw [memRead_abort ha hm] at h
      exact .inr (.inl ⟨kind, rfl, (Access.failed.inj h).symm⟩)
    | outside =>
      rw [memRead_outside ha hm] at h
      exact .inr (.inr ⟨rfl, (Access.failed.inj h).symm⟩)

/-- An abort names the address that was read. -/
theorem memRead_abort_addr {a addr : Word} {kind : AbortKind} (h : memRead a s = .failed (.abort kind addr)) :
    addr = a := by
  obtain ⟨-, e⟩ | ⟨_, -, e⟩ | ⟨-, e⟩ := memRead_failed_cases h <;> cases e <;> rfl

theorem memRead_failed_of_not_admitted {a : Word} (h : memAdmit a s ≠ .ok) : ∃ f, memRead a s = .failed f := by
  unfold memRead
  split
  · split
    · exact ⟨_, rfl⟩
    · exact ⟨_, rfl⟩
    · exact absurd ‹_› h
  · exact ⟨_, rfl⟩

/-- The failures among the word reads of a transfer, in increasing address order. -/
def failures (t : Transfer) (s : State) : List ReadFailure := (accesses t s).filterMap Access.failure?

/-- Each failure is that of one of the words of the transfer. -/
theorem mem_failures {f : ReadFailure} :
    f ∈ failures t s ↔ ∃ j < wordCount t, memRead (wordAddress t s j) s = .failed f := by
  have hfailure (r : Access) : r.failure? = some f ↔ r = .failed f := by cases r <;> simp [Access.failure?]
  have hwords (a : Word) : a ∈ wordAddresses (startAddress t s) (wordCount t) ↔
      ∃ j < wordCount t, wordAddress t s j = a := by
    simp only [List.mem_iff_getElem, wordAddresses_getElem, wordAddresses_length, exists_prop, wordAddress]
  simp only [failures, accesses, List.mem_filterMap, List.mem_map, hwords, hfailure]
  constructor
  · rintro ⟨_, ⟨_, ⟨j, hj, rfl⟩, rfl⟩, h⟩
    exact ⟨j, hj, h⟩
  · rintro ⟨j, hj, h⟩
    exact ⟨_, ⟨_, ⟨j, hj, rfl⟩, rfl⟩, h⟩

/-- The reported failure is one of the failures (R52). -/
theorem reportedFailure_mem (f : ReadFailure) (fs : List ReadFailure) : reportedFailure t f fs s ∈ f :: fs := by
  unfold reportedFailure
  split
  · exact List.mem_cons_self
  · rw [List.getD_eq_getElem _ _ (by simpa using Nat.mod_lt _ (Nat.succ_pos fs.length))]
    exact List.getElem_mem _

theorem transfer_of_failures (hr : crossesTop t s = false) {f : ReadFailure} {fs : List ReadFailure}
    (h : failures t s = f :: fs) : transfer t s = failTransfer t (reportedFailure t f fs s) s := by
  unfold failures at h
  simp [transfer, hr, h]

theorem transfer_of_no_failure (hr : crossesTop t s = false) (h : failures t s = []) : ∃ u, transfer t s = .next u := by
  unfold failures at h
  simp [transfer, hr, h]

/-- A transfer with a failing read is stopped by the failure of one of its words (R52). -/
theorem transfer_of_failed_read (hr : crossesTop t s = false) {j : Nat} (hj : j < wordCount t) {f : ReadFailure}
    (hf : memRead (wordAddress t s j) s = .failed f) :
    ∃ k < wordCount t, ∃ g, memRead (wordAddress t s k) s = .failed g ∧ transfer t s = failTransfer t g s := by
  have hmem : f ∈ failures t s := mem_failures.mpr ⟨j, hj, hf⟩
  obtain ⟨g, gs, hgs⟩ := List.exists_cons_of_ne_nil (List.ne_nil_of_mem hmem)
  have hreported : reportedFailure t g gs s ∈ failures t s := hgs ▸ reportedFailure_mem g gs
  obtain ⟨k, hk, hread⟩ := mem_failures.mp hreported
  exact ⟨k, hk, _, hread, transfer_of_failures hr hgs⟩

/-- Settles O46: the word's read fails, so a failure of some word is reported, which in an aligned transfer is no
misalignment. -/
theorem unadmittedWordStopsTheTransfer : Obligations.UnadmittedWordStopsTheTransfer := by
  intro i t s j hx hc hl he hr ha hj hm
  have hrange := crossesTop_eq_false_iff.mpr hr
  obtain ⟨f, hf⟩ := memRead_failed_of_not_admitted hm
  obtain ⟨k, hk, g, hg, htransfer⟩ := transfer_of_failed_read hrange hj hf
  have haligned : isWordAligned (wordAddress t s k) = true := (isWordAligned_add _ k).trans ha
  rw [exec_eq_transfer hx hc hl he, htransfer]
  refine ⟨k, hk, ?_⟩
  obtain ⟨hmis, -⟩ | ⟨kind, hadmit, rfl⟩ | ⟨hadmit, rfl⟩ := memRead_failed_cases hg
  · simp [haligned] at hmis
  · exact .inl ⟨kind, _, hadmit, rfl⟩
  · exact .inr ⟨hadmit, rfl⟩

/-! ### What a Data Abort leaves (R51) -/

theorem abortState_sameOutsideList (hfits : t.d + t.regs ≤ 32) : SameOutsideList t s (abortState t s) := by
  unfold SameOutsideList abortState
  cases t.single with
  | true =>
    refine ⟨fun k _ hk => ?_, fun k _ h16 => ?_⟩
    · exact (readS_unknownSingles _ _ _ hfits k).trans (if_neg hk)
    · exact readD_unknownSingles _ _ _ hfits k h16
  | false => exact fun k _ hk => (readD_unknownDoubles _ _ _ hfits k).trans (if_neg hk)

/-- The start address of a transfer is aligned as its base is (R46). -/
theorem isWordAligned_startAddress : isWordAligned (startAddress t s) = isWordAligned (readReg t.n s) := by
  unfold startAddress
  split
  · rfl
  · rw [transferSize_eq, ← isWordAligned_add _ t.imm8.toNat, BitVec.sub_add_cancel]

/-- A misaligned transfer reports its first word (R46; log 14). -/
theorem transfer_misaligned (hr : crossesTop t s = false) (hpos : 0 < wordCount t)
    (ha : isWordAligned (startAddress t s) = false) :
    transfer t s = .fault (.dataAbort .alignment (startAddress t s) (abortState t s)) := by
  obtain ⟨n, hn⟩ := Nat.exists_eq_succ_of_ne_zero hpos.ne'
  have hfirst : ∃ fs, failures t s = .abort .alignment (startAddress t s) :: fs := by
    simp [failures, accesses, hn, wordAddresses, memRead_misaligned ha, Access.failure?]
  obtain ⟨fs, hfs⟩ := hfirst
  rw [transfer_of_failures hr hfs, reportedFailure, if_pos (.inr ha)]
  rfl

/-- Settles O44: a base that is not a multiple of 4 misaligns the start address, and the abort leaves all but the
list. -/
theorem misalignedBaseAborts : Obligations.MisalignedBaseAborts := by
  intro i t s hx hc hl he hr hbase
  have hrange := crossesTop_eq_false_iff.mpr hr
  have ha : isWordAligned (startAddress t s) = false := by
    rw [isWordAligned_startAddress, ← Bool.not_eq_true, isWordAligned_iff]
    exact hbase
  refine ⟨abortState t s, ?_, ?_⟩
  · rw [exec_eq_transfer hx hc hl he, transfer_misaligned hrange (wordCount_pos hl) ha]
  · refine ⟨?_, ?_, ?_, (abortState_writes t s).sameElsewhere, abortState_sameOutsideList hl.fits⟩ <;>
      rw [abortState_frame]

/-- A transfer that ends in a Data Abort reports a read that aborts, and leaves the list UNKNOWN. -/
theorem transfer_dataAbort {kind : AbortKind} {addr : Word} {u : State}
    (h : transfer t s = .fault (.dataAbort kind addr u)) : .abort kind addr ∈ failures t s ∧ u = abortState t s := by
  cases hr : crossesTop t s with
  | true => rw [transfer_crossesTop hr] at h; cases h
  | false =>
    cases hf : failures t s with
    | nil => obtain ⟨v, hv⟩ := transfer_of_no_failure hr hf; rw [hv] at h; cases h
    | cons f fs =>
      rw [transfer_of_failures hr hf] at h
      have hmem := reportedFailure_mem (t := t) (s := s) f fs
      generalize reportedFailure t f fs s = g at h hmem
      cases g with
      | abort => cases h; exact ⟨hmem, rfl⟩
      | outside => cases h

/-- Of a word with a legal list only the transfer past the access check takes a Data Abort (R120, R123, R124). -/
theorem transfer_of_exec_dataAbort {i : Instr} (hx : Executes i t s) (hl : LegalList t s) {kind : AbortKind}
    {addr : Word} {u : State} (h : exec i s = .fault (.dataAbort kind addr u)) :
    transfer t s = .fault (.dataAbort kind addr u) := by
  rw [exec_of_executes hx, execTransfer, unpredictableChecks_legal hl] at h
  obtain ⟨-, e⟩ | ⟨-, e⟩ | e | e := conditional_cases t.cond s (checkedTransfer t s) <;> rw [e] at h
  · obtain c | c | c | c := checkedTransfer_cases t s <;> rw [c] at h
    · cases h
    · cases h
    · cases h
    · exact h
  · cases h
  · cases h
  · cases h

/-- Settles O45: the abort is a failing read of the transfer, and its state is the one R51 describes. -/
theorem dataAbortChangesTheListOnly : Obligations.DataAbortChangesTheListOnly := by
  intro i t s u kind addr hx hl h
  obtain ⟨hmem, rfl⟩ := transfer_dataAbort (transfer_of_exec_dataAbort hx hl h)
  obtain ⟨j, hj, hread⟩ := mem_failures.mp hmem
  obtain rfl := memRead_abort_addr hread
  refine ⟨⟨j, hj, rfl, hread⟩, ?_, abortState_sameOutsideList hl.fits⟩
  rw [abortState_frame]

end Sys2Proof.Machine
end

section
/-!
PROOFS. The same words loaded as a `D` list and as an `S` list (10_state.md R27, 20_memory.md R45).
-/
namespace Sys2Proof.Machine

/-! ### The two loops over the same words -/

/-- A write of both halves is a write of the `D` register (R27). -/
theorem writeS_both_halves (k : Nat) (w1 w2 : Word) (s : State) (hk : k < 32) :
    writeS (2 * k + 1) w2 (writeS (2 * k) w1 s) = writeD k (w2 ++ w1) s := by
  have hodd : (2 * k + 1) / 2 = k := by omega
  have heven : 2 * k / 2 = k := by omega
  have hmod : (2 * k + 1) % 2 = 1 := by omega
  simp only [writeS, hodd, heven, hmod, readD_writeD _ _ _ _ hk, Nat.mul_mod_right, if_true, halves_low]
  simp [writeD]

/-- Little-endian, the two loops leave the same state (R45). -/
theorem loadSingles_eq_loadDoubles (n d : Nat) (ws : List Word) {s : State} (he : s.e = false) (hl : ws.length = 2 * n)
    (h : d + n ≤ 32) : loadSingles (2 * d) ws s = loadDoubles d ws s := by
  induction n generalizing d ws s with
  | zero =>
    obtain rfl : ws = [] := List.eq_nil_of_length_eq_zero hl
    rfl
  | succ n ih =>
    match ws, hl with
    | w1 :: w2 :: ws, hl =>
      have hjoin : joinWords w1 w2 s = w2 ++ w1 := by simp [joinWords, he]
      simp only [List.length_cons] at hl
      rw [loadSingles, loadSingles, loadDoubles, hjoin, writeS_both_halves d w1 w2 s (by omega)]
      exact ih (d + 1) ws he (by omega) (by omega)

/-- Big-endian, the two loops leave the halves of each register of the list swapped (R45). -/
theorem halves_swapped {n d : Nat} {ws : List Word} {s : State} (he : s.e = true) (hl : ws.length = 2 * n)
    (h : d + n ≤ 16) {k : Nat} (hd : d ≤ k) (hk : k < d + n) :
    readS (2 * k) (loadDoubles d ws s) = readS (2 * k + 1) (loadSingles (2 * d) ws s) ∧
    readS (2 * k + 1) (loadDoubles d ws s) = readS (2 * k) (loadSingles (2 * d) ws s) := by
  have heven : 2 * k - 2 * d = 2 * (k - d) := by omega
  have hodd : 2 * k + 1 - 2 * d = 2 * (k - d) + 1 := by omega
  rw [readS_loadSingles ws _ s (by omega), readS_loadSingles ws _ s (by omega), if_pos (by omega), if_pos (by omega),
    heven, hodd, readS_even, readS_odd, readD_loadDoubles n d ws s hl (by omega), if_pos ⟨hd, hk⟩]
  simp only [joinWords, he, if_true]
  constructor
  · rw [BitVec.extractLsb'_append_eq_of_add_le (by decide)]; simp
  · rw [BitVec.extractLsb'_append_eq_of_le (by decide)]; simp

/-! ### The two transfers with the same fields -/

theorem two_mul_half_of_even {imm8 : BitVec 8} (h : isOdd imm8 = false) : 2 * (imm8.toNat / 2) = imm8.toNat := by
  have : imm8.toNat % 2 ≠ 1 := by
    simpa [isOdd, ← BitVec.toNat_inj, BitVec.extractLsb'_toNat] using h
  omega

/-- With `D` = 0 a `D` list starts at `D[UInt(Vd)]` (R64). -/
theorem firstDouble_zero (vd : BitVec 4) : firstDouble 0#1 vd = vd.toNat := by
  revert vd; decide

/-- With `D` = 0 an `S` list starts at the low half of the same register (R64). -/
theorem firstSingle_zero (vd : BitVec 4) : firstSingle 0#1 vd = 2 * vd.toNat := by
  revert vd; decide

section Fields

variable (cond : BitVec 4) (add wback : Bool) (rn vd : BitVec 4) {imm8 : BitVec 8} (s : State)
variable (heven : isOdd imm8 = false)
include heven

theorem wordCount_singleTransfer_eq (dBit : BitVec 1) :
    wordCount (singleTransfer cond add wback dBit rn vd imm8) =
      wordCount (doubleTransfer cond add wback dBit rn vd imm8) :=
  (two_mul_half_of_even heven).symm

theorem transferWords_singleTransfer_eq (dBit : BitVec 1) :
    transferWords (singleTransfer cond add wback dBit rn vd imm8) s =
      transferWords (doubleTransfer cond add wback dBit rn vd imm8) s := by
  unfold transferWords
  rw [wordCount_singleTransfer_eq _ _ _ _ _ heven]
  rfl

/-- A `D` list within `D0` to `D15` that runs normally does so as an `S` list. -/
theorem runsNormally_singleTransfer (hfits : vd.toNat + imm8.toNat / 2 ≤ 16)
    (h : RunsNormally (doubleTransfer cond add wback 0#1 rn vd imm8) s) :
    RunsNormally (singleTransfer cond add wback 0#1 rn vd imm8) s where
  passes   := h.passes
  enabled  := h.enabled
  aligned  := h.aligned
  inRange  := h.inRange
  admitted := by
    rw [wordCount_singleTransfer_eq _ _ _ _ _ heven]
    exact h.admitted
  legal    :=
    { pcBase := h.legal.pcBase
      some   := Nat.lt_of_lt_of_le h.legal.some (Nat.div_le_self _ _)
      short  := by simp [singleTransfer]
      fits   := by
        have := two_mul_half_of_even heven
        simp only [singleTransfer, singleCount, firstSingle_zero]
        omega
      odd    := by simp [singleTransfer] }

end Fields

/-- What `execTransfer_ok` leaves: the writeback and the move keep the `D` file of the loop. -/
theorem readS_afterTransfer (t : Transfer) (s x : State) (k : Nat) :
    readS k (advance (writeBase t s x)) = readS k x :=
  readS_congr (by rw [advance_dregs, writeBase_dregs]) k

/-- Settles O28: both words load the same words and write the same base, so the two loops decide. -/
theorem sameBytesThroughEitherView : Obligations.SameBytesThroughEitherView := by
  intro cond wBit rn vd imm8 s heven hfits h
  have hsingle := runsNormally_singleTransfer _ _ _ _ _ s heven hfits h
  refine ⟨_, _, execTransfer_ok h, execTransfer_ok hsingle, ?_⟩
  rw [transferWords_singleTransfer_eq _ _ _ _ _ s heven]
  set ws := transferWords (doubleTransfer cond true (wBit == 1#1) 0#1 rn vd imm8) s
  have hlength : ws.length = 2 * (imm8.toNat / 2) := transferWords_length _ _
  have hdouble : loadList (doubleTransfer cond true (wBit == 1#1) 0#1 rn vd imm8) ws s = loadDoubles vd.toNat ws s := by
    rw [← firstDouble_zero]; rfl
  have hsingles : loadList (singleTransfer cond true (wBit == 1#1) 0#1 rn vd imm8) ws s =
      loadSingles (2 * vd.toNat) ws s := by
    rw [← firstSingle_zero]; rfl
  rw [hdouble, hsingles]
  refine ⟨fun he => ?_, fun he k hd hk => ?_⟩
  · rw [loadSingles_eq_loadDoubles _ _ ws he hlength (by omega)]
    rfl
  · simp only [readS_afterTransfer]
    exact halves_swapped he hlength hfits hd hk

end Sys2Proof.Machine
end

section
/-!
PROOFS. The fields as numbers (30_encoding.md R64, R66, R67, R69) and the assembler's fields (R83, R84).
-/
namespace Sys2Proof.Machine

/-! ### The class of `P U W` -/

/-- Settles O4: one law of the decoder per class. -/
theorem puwMapIsComplete : Obligations.PuwMapIsComplete :=
  ⟨puwClass_related, puwClass_undefined001, puwClass_incrementAfter 0, puwClass_incrementAfter 1, puwClass_vldr 0,
    puwClass_decrementBefore, puwClass_vldr 1, puwClass_undefined111⟩

/-! ### What the decode computes from a field -/

theorem firstDouble_eq (dBit : BitVec 1) (vd : BitVec 4) : firstDouble dBit vd = 16 * dBit.toNat + vd.toNat := by
  rw [firstDouble, BitVec.toNat_append, ← Nat.shiftLeft_add_eq_or_of_lt vd.isLt, Nat.shiftLeft_eq, Nat.mul_comm]

theorem firstSingle_eq (dBit : BitVec 1) (vd : BitVec 4) : firstSingle dBit vd = 2 * vd.toNat + dBit.toNat := by
  rw [firstSingle, BitVec.toNat_append, ← Nat.shiftLeft_add_eq_or_of_lt dBit.isLt, Nat.shiftLeft_eq, Nat.mul_comm]

/-- Settles O5: the two formulas, and the bounds from the widths of the fields. -/
theorem firstRegisterNumber : Obligations.FirstRegisterNumber := by
  intro dBit vd
  have hD := dBit.isLt
  have hVd := vd.isLt
  rw [firstDouble_eq, firstSingle_eq]
  exact ⟨rfl, rfl, by omega, by omega⟩

/-- The transfer size does not wrap (R66). -/
theorem transferSize_toNat (imm8 : BitVec 8) : (transferSize imm8).toNat = 4 * imm8.toNat := by
  have himm := imm8.isLt
  rw [transferSize_eq, BitVec.toNat_ofNat, Nat.mod_eq_of_lt (by omega)]

/-- Settles O6: the size as a number; the two addresses are so defined (R90 lines 5 and 13). -/
theorem transferSizeIsFourTimesImm8 : Obligations.TransferSizeIsFourTimesImm8 := by
  refine ⟨fun imm8 => ?_, fun t s => ⟨rfl, rfl⟩⟩
  have himm := imm8.isLt
  rw [transferSize_toNat]
  exact ⟨rfl, by omega, Nat.dvd_mul_right 4 _⟩

/-- Settles O7: an even `imm8` is twice its half, so no word is left over. -/
theorem registerCount : Obligations.RegisterCount := by
  intro imm8
  have himm := imm8.isLt
  rw [transferSize_toNat]
  unfold doubleCount singleCount
  refine ⟨rfl, rfl, by omega, by omega, fun heven => ?_, rfl⟩
  have := two_mul_half_of_even heven
  omega

/-! ### The assembler's fields -/

theorem isOdd_eq_false_iff (imm8 : BitVec 8) : isOdd imm8 = false ↔ imm8.toNat % 2 = 0 := by
  simp [isOdd, ← BitVec.toNat_inj, BitVec.extractLsb'_toNat]

section

variable {first last : Nat} {dBit : BitVec 1} {vd : BitVec 4} {imm8 : BitVec 8}

/-- The fields of a `D` list that the assembler accepts, and what it has checked (R83). -/
theorem assembleDoubles_eq_some (h : assembleDoubles first last = some (dBit, vd, imm8)) :
    (first ≤ last ∧ last ≤ 31 ∧ last - first + 1 ≤ 16) ∧
    dBit.toNat = first / 16 ∧ vd.toNat = first % 16 ∧ imm8.toNat = 2 * (last - first + 1) := by
  unfold assembleDoubles at h
  split at h
  case isTrue hlegal =>
    cases h
    simp only [BitVec.toNat_ofNat]
    exact ⟨hlegal, by omega, by omega, by omega⟩
  case isFalse => cases h

/-- The fields of an `S` list that the assembler accepts, and what it has checked (R84). -/
theorem assembleSingles_eq_some (h : assembleSingles first last = some (dBit, vd, imm8)) :
    (first ≤ last ∧ last ≤ 31) ∧
    dBit.toNat = first % 2 ∧ vd.toNat = first / 2 ∧ imm8.toNat = last - first + 1 := by
  unfold assembleSingles at h
  split at h
  case isTrue hlegal =>
    cases h
    simp only [BitVec.toNat_ofNat]
    exact ⟨hlegal, by omega, by omega, by omega⟩
  case isFalse => cases h

end

/-- Settles O8: the decode puts together the quotient and the remainder into which the assembler took the first register
apart, and a `D` list's `imm8` is twice its length. -/
theorem assembledListDecodes : Obligations.AssembledListDecodes := by
  refine ⟨fun first last dBit vd imm8 h => ?_, fun first last dBit vd imm8 h => ?_⟩
  · obtain ⟨hlegal, hD, hVd, himm⟩ := assembleDoubles_eq_some h
    rw [firstDouble_eq, isOdd_eq_false_iff, doubleCount, hD, hVd, himm]
    omega
  · obtain ⟨hlegal, hD, hVd, himm⟩ := assembleSingles_eq_some h
    rw [firstSingle_eq, singleCount, hD, hVd, himm]
    omega

end Sys2Proof.Machine
end

section
/-!
PROOFS. The words that are UNDEFINED (30_encoding.md R71) and those of other instructions (R70, R73).
-/
namespace Sys2Proof.Machine

variable {i : Instr} {s : State}

/-! ### UNDEFINED words -/

theorem exec_undefinedWord_passes (h : isUndefinedWord i = true) (hc : conditionPasses (fieldCond (encode i)) s = true) :
    exec i s = .fault (.undefinedInstruction s) := by
  rw [exec_of_undefinedWord s h]
  exact conditional_passes _ hc

theorem exec_undefinedWord_fails (h : isUndefinedWord i = true) (hc : conditionFails (fieldCond (encode i)) s = true) :
    exec i s = .next (advance s) := by
  rw [exec_of_undefinedWord s h]
  exact conditional_fails _ hc

/-- Settles O31: the four rows are UNDEFINED words with their condition in bits 31:28, and the condition decides. -/
theorem undefinedWordsFaultOrSkip : Obligations.UndefinedWordsFaultOrSkip := by
  intro cond dBit rn vd size imm8 s i c hrow
  have hword : isUndefinedWord i = true ∧ fieldCond (encode i) = c := by
    obtain ⟨rfl, rfl⟩ | ⟨rfl, rfl⟩ | ⟨rfl, rfl⟩ | ⟨rfl, rfl⟩ := hrow <;> exact ⟨rfl, fieldCond_pack ..⟩
  obtain ⟨hundef, rfl⟩ := hword
  rw [← advance_eq]
  exact ⟨exec_undefinedWord_passes hundef, exec_undefinedWord_fails hundef⟩

/-! ### Words of other instructions -/

theorem decode_encodeBytes (h : WellFormed i) : decode i.instrSet (encodeBytes i) = .instr i [] := by
  simpa using decodeInvertsEncode i [] h

/-- Settles O32: each word is the encoding of its row, so the decoder recognises it; the row's meaning is the refusal. -/
theorem redirectedWordsAreRefused : Obligations.RedirectedWordsAreRefused := by
  intro cond uBit dBit rn vd size imm8 s
  refine ⟨fun hcond => ?_, ?_, ?_, rfl, rfl, rfl, rfl⟩
  · have hwf := (condition_iff cond).mpr hcond
    exact ⟨decode_encodeBytes (i := .seeRelatedA32 cond dBit rn vd size imm8) hwf,
      decode_encodeBytes (i := .seeVldrA32 cond uBit dBit rn vd size imm8) hwf⟩
  · exact decode_encodeBytes (i := .seeRelatedT32 dBit rn vd size imm8) rfl
  · exact decode_encodeBytes (i := .seeVldrT32 uBit dBit rn vd size imm8) rfl

/-- Settles O33: the four forms are odd-imm8 words, refused before their condition. -/
theorem fldmxRefusedByDefault : Obligations.FldmxRefusedByDefault :=
  ⟨rfl, fun _ _ _ _ _ _ _ h => ⟨execOdd_refuse _ h, execOdd_refuse _ h, execOdd_refuse _ h, execOdd_refuse _ h⟩⟩

end Sys2Proof.Machine
end

section
/-!
PROOFS. The transfers that complete (40_vldm.md R92 to R100, R108): what each word loads, the base it leaves and its frame.
-/
namespace Sys2Proof.Machine

variable {i : Instr} {s : State}

/-! ### A transfer that runs normally -/

/-- `i` goes from `s` to a next state that `loaded` describes, with `v` in `R[n]` on writeback and nothing else changed but
the move to the next instruction: the form of every completion in section 3 of 40_vldm.md. -/
def Completes (i : Instr) (s : State) (loaded : State → Prop) (wback : Bool) (n : BitVec 4) (v : Word) : Prop :=
  ∃ u, exec i s = .next u ∧ loaded u ∧ BaseBecomes wback n v s u ∧ MovesOn s u ∧ SameElsewhere s u ∧ SameBytes s u ∧
    u.draws = s.draws

theorem completes_of_runsNormally {t : Transfer} {loaded : State → Prop} (hx : Executes i t s) (h : RunsNormally t s)
    (hload : ∀ u, u.dregs = (loadList t (transferWords t s) s).dregs → loaded u) :
    Completes i s loaded t.wback t.n (writebackValue t s) := by
  obtain ⟨u, hexec, hdregs, hframe⟩ := execTransfer_completes h
  exact ⟨u, (exec_of_executes hx).trans hexec, hload u hdregs, hframe⟩

section Views

variable {d regs : Nat} {start : Word} {x u : State}

/-- What a `D` list holds depends on the `D` file only. -/
theorem LoadsDoubles.congr (h : LoadsDoubles d regs start s x) (hu : u.dregs = x.dregs) :
    LoadsDoubles d regs start s u :=
  fun k hk => (readD_congr hu k).trans (h k hk)

/-- What an `S` list holds depends on the `D` file only. -/
theorem LoadsSingles.congr (h : LoadsSingles d regs start s x) (hu : u.dregs = x.dregs) :
    LoadsSingles d regs start s u :=
  ⟨fun k hk => (readS_congr hu k).trans (h.1 k hk), fun k hk h16 => (readD_congr hu k).trans (h.2 k hk h16)⟩

end Views

section Fields

variable {cond : BitVec 4} {add wback : Bool} {dBit : BitVec 1} {rn vd : BitVec 4} {imm8 : BitVec 8}

/-- An A1 or T1 word loads doublewords upward from its start address (R92, R93). -/
theorem completes_doubleTransfer {start v : Word} (h : RunsNormally (doubleTransfer cond add wback dBit rn vd imm8) s)
    (hx : Executes i (doubleTransfer cond add wback dBit rn vd imm8) s)
    (hstart : startAddress (doubleTransfer cond add wback dBit rn vd imm8) s = start)
    (hv : writebackValue (doubleTransfer cond add wback dBit rn vd imm8) s = v) :
    Completes i s (LoadsDoubles (16 * dBit.toNat + vd.toNat) (imm8.toNat / 2) start s) wback rn v := by
  subst hstart hv
  refine completes_of_runsNormally hx h fun u hu => ?_
  rw [← firstDouble_eq]
  exact (loadsDoubles_loadList rfl h.legal.fits).congr hu

/-- An A2 or T2 word loads words upward from its start address (R94, R95). -/
theorem completes_singleTransfer {start v : Word} (h : RunsNormally (singleTransfer cond add wback dBit rn vd imm8) s)
    (hx : Executes i (singleTransfer cond add wback dBit rn vd imm8) s)
    (hstart : startAddress (singleTransfer cond add wback dBit rn vd imm8) s = start)
    (hv : writebackValue (singleTransfer cond add wback dBit rn vd imm8) s = v) :
    Completes i s (LoadsSingles (2 * vd.toNat + dBit.toNat) imm8.toNat start s) wback rn v := by
  subst hstart hv
  refine completes_of_runsNormally hx h fun u hu => ?_
  rw [← firstSingle_eq]
  exact (loadsSingles_loadList rfl h.legal.fits).congr hu

/-! ### The transfer size in registers (R66, R67) -/

/-- With an even `imm8` the transfer size is the doublewords of the list. -/
theorem transferSize_of_even (h : isOdd imm8 = false) : transferSize imm8 = BitVec.ofNat 32 (8 * (imm8.toNat / 2)) := by
  have := two_mul_half_of_even h
  rw [transferSize_eq]
  congr 1
  omega

theorem isOdd_eq_true_iff (imm8 : BitVec 8) : isOdd imm8 = true ↔ imm8.toNat % 2 = 1 := by
  rw [← Bool.not_eq_false, isOdd_eq_false_iff, Nat.mod_two_not_eq_zero]

/-- With an odd `imm8` the transfer size is one word more than the doublewords of the list (R108). -/
theorem transferSize_of_odd (h : isOdd imm8 = true) :
    transferSize imm8 = BitVec.ofNat 32 (8 * ((imm8.toNat - 1) / 2) + 4) := by
  have := (isOdd_eq_true_iff imm8).mp h
  rw [transferSize_eq]
  congr 1
  omega

theorem pred_half_of_odd (h : isOdd imm8 = true) : (imm8.toNat - 1) / 2 = imm8.toNat / 2 := by
  have := (isOdd_eq_true_iff imm8).mp h
  omega

end Fields

/-! ### VLDM and VLDMDB -/

/-- Settles O16: the `D` list from the base upward; an even `imm8` counts its bytes. -/
theorem vldmA1LoadsDoublewords : Obligations.VldmA1LoadsDoublewords := by
  intro cond dBit wBit rn vd imm8 s heven h
  rw [← transferSize_of_even heven]
  exact completes_doubleTransfer h ⟨rfl, rfl⟩ rfl rfl

/-- Settles O17: the start address of the `D` list and the base it leaves are the same. -/
theorem vldmdbA1LoadsDoublewords : Obligations.VldmdbA1LoadsDoublewords := by
  intro cond dBit rn vd imm8 s heven h
  rw [← transferSize_of_even heven]
  exact completes_doubleTransfer h ⟨rfl, rfl⟩ rfl rfl

/-- Settles O18: the `S` list from the base upward, one word per register. -/
theorem vldmA2LoadsWords : Obligations.VldmA2LoadsWords := by
  intro cond dBit wBit rn vd imm8 s h
  rw [← transferSize_eq]
  exact completes_singleTransfer h ⟨rfl, rfl⟩ rfl rfl

/-- Settles O19: the start address of the `S` list and the base it leaves are the same. -/
theorem vldmdbA2LoadsWords : Obligations.VldmdbA2LoadsWords := by
  intro cond dBit rn vd imm8 s h
  rw [← transferSize_eq]
  exact completes_singleTransfer h ⟨rfl, rfl⟩ rfl rfl

/-- Settles O20: the T32 form runs the A1 transfer with the pattern's 1110 for a condition field. -/
theorem vldmT1LoadsDoublewords : Obligations.VldmT1LoadsDoublewords :=
  vldmA1LoadsDoublewords 0b1110#4

/-- Settles O21: the T32 form runs the A1 transfer with the pattern's 1110 for a condition field. -/
theorem vldmdbT1LoadsDoublewords : Obligations.VldmdbT1LoadsDoublewords :=
  vldmdbA1LoadsDoublewords 0b1110#4

/-- Settles O22: the T32 form runs the A2 transfer with the pattern's 1110 for a condition field. -/
theorem vldmT2LoadsWords : Obligations.VldmT2LoadsWords :=
  vldmA2LoadsWords 0b1110#4

/-- Settles O23: the T32 form runs the A2 transfer with the pattern's 1110 for a condition field. -/
theorem vldmdbT2LoadsWords : Obligations.VldmdbT2LoadsWords :=
  vldmdbA2LoadsWords 0b1110#4

/-! ### VPOP -/

/-- Settles O24: both forms are the VLDM with W = 1 and base 1101. -/
theorem vpopLoadsDoublewords : Obligations.VpopLoadsDoublewords := by
  intro cond dBit vd imm8 s heven i hform
  obtain ⟨rfl, h⟩ | ⟨rfl, h⟩ := hform
  · exact vldmA1LoadsDoublewords cond dBit 1#1 13#4 vd imm8 s heven h
  · exact vldmT1LoadsDoublewords dBit 1#1 13#4 vd imm8 s heven h

/-- Settles O25: both forms are the VLDM with W = 1 and base 1101. -/
theorem vpopLoadsWords : Obligations.VpopLoadsWords := by
  intro cond dBit vd imm8 s i hform
  obtain ⟨rfl, h⟩ | ⟨rfl, h⟩ := hform
  · exact vldmA2LoadsWords cond dBit 1#1 13#4 vd imm8 s h
  · exact vldmT2LoadsWords dBit 1#1 13#4 vd imm8 s h

/-- Settles O29: the two forms of each line are one transfer, VPOP with the base 1101 and a T32 form with the condition
field 1110 written into its constants. -/
theorem encodingsShareOneOperation : Obligations.EncodingsShareOneOperation :=
  fun _ _ _ _ _ _ _ => ⟨rfl, rfl, rfl, rfl, rfl, rfl, rfl, rfl⟩

/-! ### FLDM*X -/

/-- Under ODD_IMM8 = as_source_pseudocode every word with the constants of a transfer runs the Operation (R73, R108). -/
theorem executes_of_asSourcePseudocode {t : Transfer} (hset : s.params.oddImm8 = .asSourcePseudocode)
    (ht : transferOf i = some t) : Executes i t s := by
  refine ⟨ht, ?_⟩
  cases i with
  | seeRelatedA32 | seeRelatedT32 | seeVldrA32 | seeVldrT32 => cases ht
  | fldmxA1Ia | fldmxA1Db | fldmxT1Ia | fldmxT1Db => simp [isRedirected, hset]
  | _ => rfl

/-- Settles O26: both forms run the `D` transfer upward; an odd `imm8` counts one word past its bytes. -/
theorem fldmxIncrementAfterLoads : Obligations.FldmxIncrementAfterLoads := by
  intro cond dBit wBit rn vd imm8 s hodd hset i hform
  rw [← transferSize_of_odd hodd, pred_half_of_odd hodd]
  obtain ⟨rfl, h⟩ | ⟨rfl, h⟩ := hform
  · exact completes_doubleTransfer h (executes_of_asSourcePseudocode hset rfl) rfl rfl
  · exact completes_doubleTransfer h (executes_of_asSourcePseudocode hset rfl) rfl rfl

/-- Settles O27: both forms run the `D` transfer from one word below the bytes it reads. -/
theorem fldmxDecrementBeforeLoads : Obligations.FldmxDecrementBeforeLoads := by
  intro cond dBit rn vd imm8 s hodd hset i hform
  rw [← transferSize_of_odd hodd, pred_half_of_odd hodd]
  obtain ⟨rfl, h⟩ | ⟨rfl, h⟩ := hform
  · exact completes_doubleTransfer h (executes_of_asSourcePseudocode hset rfl) rfl rfl
  · exact completes_doubleTransfer h (executes_of_asSourcePseudocode hset rfl) rfl rfl

end Sys2Proof.Machine
end

section
/-!
PROOFS. Words that are skipped (40_vldm.md R91) and the UNPREDICTABLE cases with their treatments (R74, R104 to R107).
-/
namespace Sys2Proof.Machine

variable {i : Instr} {t : Transfer} {s : State}

/-- Settles O30: every word that is not redirected tests its condition before anything else. -/
theorem failedConditionSkips : Obligations.FailedConditionSkips := by
  intro i s hr hc
  obtain ⟨body, hexec⟩ := exec_conditional hr
  rw [hexec, conditional_fails body hc, advance_eq]

/-! ### The tests of the decode, in their order (R74; log 16) -/

theorem exec_eq_unpredictableChecks (hx : Executes i t s) (hc : conditionPasses t.cond s = true) :
    exec i s = unpredictableChecks t s := by
  rw [exec_of_executes hx, execTransfer, conditional_passes _ hc]

theorem pcBaseUnpredictable_iff :
    pcBaseUnpredictable t s = true ↔ t.n = 15#4 ∧ (t.wback = true ∨ s.iset ≠ .a32) := by
  simp [pcBaseUnpredictable]

theorem oddListUnpredictable_iff :
    oddListUnpredictable t = true ↔ t.single = false ∧ isOdd t.imm8 = true ∧ 16 < t.d + t.regs := by
  simp [oddListUnpredictable, and_assoc]

theorem rangeUnpredictable_iff :
    rangeUnpredictable t = true ↔ (t.single = false ∧ 16 < t.regs) ∨ 32 < t.d + t.regs := by
  simp [rangeUnpredictable]

theorem unpredictableChecks_pcBase (h : pcBaseUnpredictable t s = true) :
    unpredictableChecks t s = .refused .unpredictablePcBase := by
  simp [unpredictableChecks, h]

section PastThePcTest

variable (hpc : t.n = 15#4 → t.wback = false ∧ s.iset = .a32)
include hpc

theorem unpredictableChecks_oddList (ho : oddListUnpredictable t = true) :
    unpredictableChecks t s = .refused .unpredictableOddList := by
  simp [unpredictableChecks, pcBaseUnpredictable_false hpc, ho]

theorem unpredictableChecks_noRegs (ho : ¬oddListUnpredictable t = true) (h0 : t.regs = 0) :
    unpredictableChecks t s = noRegsCase t s := by
  simp [unpredictableChecks, pcBaseUnpredictable_false hpc, ho, h0]

theorem unpredictableChecks_range (ho : ¬oddListUnpredictable t = true) (h0 : 0 < t.regs)
    (h : rangeUnpredictable t = true) : unpredictableChecks t s = rangeCase t s := by
  simp [unpredictableChecks, pcBaseUnpredictable_false hpc, ho, h0.ne', h]

end PastThePcTest

/-- Settles O35: the test of the base comes first. -/
theorem pcBaseIsRefused : Obligations.PcBaseIsRefused := by
  intro i t s hx hc hn hor
  rw [exec_eq_unpredictableChecks hx hc]
  exact unpredictableChecks_pcBase (pcBaseUnpredictable_iff.mpr ⟨hn, hor⟩)

/-- Settles O36: past the test of the base that of the odd list comes next. -/
theorem oddListPastD15IsRefused : Obligations.OddListPastD15IsRefused := by
  intro i t s hx hc hpc hs ho hd
  rw [exec_eq_unpredictableChecks hx hc]
  exact unpredictableChecks_oddList hpc (oddListUnpredictable_iff.mpr ⟨hs, ho, hd⟩)

/-! ### The empty list (R104) -/

/-- Past the access check an empty list reads no word and loads none: it writes the base and moves on. -/
theorem transfer_noRegs (hr : crossesTop t s = false) (h0 : t.regs = 0) :
    transfer t s = .next (advance (writeBase t s s)) := by
  have hwords : accesses t s = [] := by simp [accesses, wordCount, h0, wordAddresses]
  have hload : loadList t [] s = s := by simp [loadList, loadSingles, loadDoubles]
  simp [transfer, hr, hwords, hload]

theorem writeReg_readReg {n : BitVec 4} (hn : n ≠ 15#4) (s : State) : writeReg n (readReg n s) s = s := by
  have hlt := toNat_lt_of_ne_pc hn
  have hregs : s.regs.setIfInBounds n.toNat s.regs[n.toNat] = s.regs := by
    refine Vector.ext fun k hk => ?_
    rw [Vector.getElem_setIfInBounds hk]
    split
    · subst k; rfl
    · rfl
  simp only [writeReg, readReg, hlt, dite_true, hregs]

/-- A transfer of no words writes the base back as it was. -/
theorem writeBase_of_imm8_eq_zero (hpc : t.n = 15#4 → t.wback = false) (h : t.imm8 = 0#8) : writeBase t s s = s := by
  have hvalue : writebackValue t s = readReg t.n s := by simp [writebackValue, transferSize_eq, h]
  unfold writeBase
  split
  case isTrue hw =>
    rw [hvalue]
    exact writeReg_readReg (fun hn => by simp [hpc hn] at hw) s
  case isFalse => rfl

/-- Settles O37: the word reaches the setting of CU_REGS0; under no_regs the transfer past the access check changes the base
alone. -/
theorem emptyListTreatments : Obligations.EmptyListTreatments := by
  intro i t s hx hc hpc h0 hodd
  have hodd' : ¬oddListUnpredictable t = true := by simpa [oddListUnpredictable_iff, h0] using hodd
  rw [exec_eq_unpredictableChecks hx hc, unpredictableChecks_noRegs hpc hodd' h0]
  refine ⟨fun h => ?undefined, fun h => ?nop, fun h => ?refuse, fun h => ?noRegs, fun h => ?anyListed⟩
  case noRegs =>
    have hwback (hn : t.n = 15#4) := (hpc hn).1
    have hcheck : noRegsCase t s = checkedTransfer t s := by simp [noRegsCase, h]
    rw [hcheck]
    refine ⟨fun ha => by simp [checkedTransfer, ha, takeException],
      fun ha => by simp [checkedTransfer, ha, takeException], fun ha hr => ?_⟩
    have hnext : checkedTransfer t s = .next (advance (writeBase t s s)) := by
      simp only [checkedTransfer, ha]
      exact transfer_noRegs (crossesTop_eq_false_iff.mpr hr) h0
    have hwrites := writeBase_writes t s s
    exact ⟨_, hnext, baseBecomes_writeBase rfl hwback, writeBase_dregs t s s, hwrites.movesOn,
      hwrites.sameElsewhere.advance, fun h8 => congrArg advance (writeBase_of_imm8_eq_zero hwback h8)⟩
  case anyListed =>
    simp only [noRegsCase, h]
    split_ifs
    · exact .inl rfl
    · exact .inr (.inl rfl)
    · exact .inr (.inr rfl)
  all_goals simp [noRegsCase, h, takeException]

/-! ### The list that is too long (R105) -/

/-- The first register of a decoded list is one of 32 (R64). -/
theorem d_lt_of_transferOf (h : transferOf i = some t) : t.d < 32 := by
  have hdouble (dBit : BitVec 1) (vd : BitVec 4) : firstDouble dBit vd < 32 := BitVec.isLt _
  have hsingle (dBit : BitVec 1) (vd : BitVec 4) : firstSingle dBit vd < 32 := BitVec.isLt _
  cases i with
  | vldmA2 | vldmdbA2 | vldmT2 | vldmdbT2 | vpopA2 | vpopT2 => cases h; exact hsingle _ _
  | undefPuw001A32 | undefPuw111A32 | undefPuw001T32 | undefPuw111T32 => cases h
  | seeRelatedA32 | seeRelatedT32 | seeVldrA32 | seeVldrT32 => cases h
  | _ => cases h; exact hdouble _ _

/-- Registers UNKNOWN, with or without a Data Abort at a word of the range (R105; log 17). -/
theorem unknownRangeCase_eq (hpos : 0 < wordCount t) :
    unknownRangeCase t s = .next (advance (unknownRange t (drawn 2 s))) ∨
    ∃ kind, ∃ j < wordCount t,
      unknownRangeCase t s = .fault (.dataAbort kind (wordAddress t s j) (unknownRange t (drawn 2 s))) := by
  unfold unknownRangeCase
  split
  · exact .inr ⟨_, _, Nat.mod_lt _ hpos, rfl⟩
  · exact .inl rfl

theorem RegisterWrites.readReg_eq {base : BitVec 4 → Prop} {x : State} (h : RegisterWrites base s x) {m : BitVec 4}
    (hm : m ≠ 15#4) (hbase : ¬base m) : readReg m x = readReg m s :=
  Classical.not_not.mp fun hne => hbase (h.reads m hm hne)

/-- Settles O38: the word reaches the setting of CU_RANGE; under unknown_regs both outcomes carry a state that differs in the
write set only. -/
theorem longListTreatments : Obligations.LongListTreatments := by
  intro i t s hx hc hpc hodd hlong
  have hodd' : ¬oddListUnpredictable t = true := fun h =>
    hodd ((oddListUnpredictable_iff.mp h).imp_right And.left)
  have hregs : 0 < t.regs := by
    have := d_lt_of_transferOf hx.1
    omega
  have hpos : 0 < wordCount t := by unfold wordCount; split <;> omega
  rw [exec_eq_unpredictableChecks hx hc, unpredictableChecks_range hpc hodd' hregs (rangeUnpredictable_iff.mpr hlong)]
  refine ⟨fun h => ?undefined, fun h => ?nop, fun h => ?refuse, fun h => ?unknownRegs, fun h => ?anyListed⟩
  case unknownRegs =>
    have hcase : rangeCase t s = unknownRangeCase t s := by simp [rangeCase, h]
    have hwrites : RegisterWrites t.WritesBack s (unknownRange t (drawn 2 s)) :=
      .trans (.drawn 2) (unknownRange_writes t (drawn 2 s))
    have hkeeps (m : BitVec 4) (hm : m ≠ 15#4) (hbase : ¬(t.wback = true ∧ m = t.n)) :
        readReg m (unknownRange t (drawn 2 s)) = readReg m s :=
      hwrites.readReg_eq hm fun hb => hbase (hb.imp_right Eq.symm)
    rw [hcase]
    obtain hnext | ⟨kind, j, hj, hfault⟩ := unknownRangeCase_eq (s := s) hpos
    · exact .inl ⟨_, hnext, hwrites.movesOn, hwrites.sameElsewhere.advance,
        fun m hm hbase => (readReg_congr (advance_regs _) hm).trans (hkeeps m hm hbase)⟩
    · exact .inr ⟨kind, j, _, hj, hfault, by rw [hwrites.frame], by rw [hwrites.frame], hwrites.sameElsewhere, hkeeps⟩
  case anyListed =>
    simp only [rangeCase, h]
    split_ifs
    · exact .inl rfl
    · exact .inr (.inl rfl)
    · exact .inr (.inr rfl)
  all_goals simp [rangeCase, h, takeException]

end Sys2Proof.Machine
end

section
/-!
PROOFS. The access check and the causes of Undefined Instruction (60_exceptions.md R120 to R123, R126).
-/
namespace Sys2Proof.Machine

variable {i : Instr} {t : Transfer} {s u : State}

/-! ### The access check over the control registers (R122) -/

/-- NSACR takes the access away from Non-secure state, where EL3 uses AArch32 (R122). -/
abbrev Cp10Locked (s : State) : Prop :=
  s.params.el3AArch32 = true ∧ s.security = .nonSecure ∧ s.nsacr.extractLsb' 10 1 = 0#1

/-- EL2 traps the access from Non-secure state (R122). -/
abbrev Cp10Trapped (s : State) : Prop :=
  s.params.el2 = true ∧ s.security = .nonSecure ∧ (Cp10Locked s ∨ s.hcptr.extractLsb' 10 1 = 1#1)

/-- Neither NSACR nor CPACR.cp10 takes the access away; in Hyp mode neither is asked (R122). -/
def Cp10Allowed (s : State) : Prop :=
  s.mode = .hyp ∨
    (¬Cp10Locked s ∧ (s.cpacr.extractLsb' 20 2 = 0b11#2 ∨ (s.cpacr.extractLsb' 20 2 = 0b01#2 ∧ s.mode ≠ .user)))

/-- NSACR or CPACR.cp10 takes the access away (R122). -/
def Cp10Denied (s : State) : Prop :=
  s.mode ≠ .hyp ∧
    (Cp10Locked s ∨ s.cpacr.extractLsb' 20 2 = 0b00#2 ∨ (s.cpacr.extractLsb' 20 2 = 0b01#2 ∧ s.mode = .user))

/-- The model's test of NSACR. -/
theorem cp10Locked_iff : Cp10Locked s ↔
    (s.params.el3AArch32 && decide (s.security = .nonSecure) && s.nsacr.extractLsb' 10 1 == 0#1) = true := by
  simp [Cp10Locked, and_assoc]

/-- The model's test of HCPTR. -/
theorem cp10Trapped_iff : Cp10Trapped s ↔
    (s.params.el2 && decide (s.security = .nonSecure) &&
      ((s.params.el3AArch32 && decide (s.security = .nonSecure) && s.nsacr.extractLsb' 10 1 == 0#1) ||
        s.hcptr.extractLsb' 10 1 == 1#1)) = true := by
  simp [Cp10Trapped, Cp10Locked, and_assoc]

/-- What R122 answers once NSACR and CPACR.cp10 have not taken the access away: FPEXC.EN, then the trap of EL2. -/
def accessPastCp10 (s : State) : Option FpAccess :=
  if s.fpexc.extractLsb' 30 1 = 0#1 then some .undefined
  else if Cp10Trapped s then (if s.mode = .hyp then some .undefined else some .hypTrap)
  else some .enabled

section Registers

variable (hreg : s.params.fpCheck = .registers)
include hreg

theorem fpAccess_of_denied (h : Cp10Denied s) : fpAccess s = some .undefined := by
  obtain ⟨hmode, h⟩ := h
  by_cases hlocked : Cp10Locked s
  · simp [fpAccess, hreg, fpAccessFromRegisters, hmode, cp10Locked_iff.mp hlocked]
  · obtain hcp10 | ⟨hcp10, huser⟩ := h.resolve_left hlocked
    · simp [fpAccess, hreg, fpAccessFromRegisters, hmode, hcp10]
    · simp [fpAccess, hreg, fpAccessFromRegisters, hcp10, huser, cp10Locked_iff.not.mp hlocked]

theorem fpAccess_of_allowed (h : Cp10Allowed s) : fpAccess s = accessPastCp10 s := by
  obtain hmode | ⟨hlocked, hcp10 | ⟨hcp10, hmode⟩⟩ := h
  · simp [fpAccess, hreg, fpAccessFromRegisters, accessPastCp10, cp10Trapped_iff, hmode]
  · simp [fpAccess, hreg, fpAccessFromRegisters, accessPastCp10, cp10Trapped_iff, hcp10, cp10Locked_iff.not.mp hlocked]
  · simp [fpAccess, hreg, fpAccessFromRegisters, accessPastCp10, cp10Trapped_iff, hcp10, hmode,
      cp10Locked_iff.not.mp hlocked]

theorem fpAccess_of_reserved (hmode : s.mode ≠ .hyp) (hlocked : ¬Cp10Locked s)
    (hcp10 : s.cpacr.extractLsb' 20 2 = 0b10#2) (hset : s.params.cp10Reserved = .refuse) : fpAccess s = none := by
  simp [fpAccess, hreg, fpAccessFromRegisters, hmode, hcp10, hset, cp10Locked_iff.not.mp hlocked]

end Registers

/-- Settles O42: R122 asks NSACR and CPACR.cp10 first, and past them FPEXC.EN and the trap of EL2 decide. -/
theorem accessCheckFromRegisters : Obligations.AccessCheckFromRegisters := by
  intro s hreg nonSecure locked cp10 trapped allowed denied
  have hpast (ha : allowed) : fpAccess s = accessPastCp10 s := fpAccess_of_allowed hreg ha
  refine ⟨fpAccess_of_denied hreg, fun ha hen => ?_, fun ha hen (ht : Cp10Trapped s) hm => ?_,
    fun ha hen (ht : Cp10Trapped s) hm => ?_, fun ha hen (ht : ¬Cp10Trapped s) => ?_, fpAccess_of_reserved hreg⟩
  · simp [hpast ha, accessPastCp10, hen]
  · simp [hpast ha, accessPastCp10, hen, ht, hm]
  · simp [hpast ha, accessPastCp10, hen, ht, hm]
  · simp [hpast ha, accessPastCp10, hen, ht]

/-! ### The answers that stop a word (R121, R123, R126) -/

theorem exec_eq_checkedTransfer (hx : Executes i t s) (hc : conditionPasses t.cond s = true) (hl : LegalList t s) :
    exec i s = checkedTransfer t s := by
  rw [exec_eq_unpredictableChecks hx hc, unpredictableChecks_legal hl]

theorem checkedTransfer_hypTrap (h : fpAccess s = some .hypTrap) : checkedTransfer t s = .fault (.hypTrap s) := by
  simp [checkedTransfer, h, takeException]

/-- Past the access check no transfer is UNDEFINED (R90 lines 4 to 15). -/
theorem transfer_ne_undefined : transfer t s ≠ .fault (.undefinedInstruction u) := by
  obtain h | ⟨kind, addr, h⟩ | ⟨addr, h⟩ | ⟨ws, h⟩ := transfer_cases t s <;> simp [h]

theorem takeUndefined_eq_iff :
    takeException .undefinedInstruction s = .fault (.undefinedInstruction u) ↔ s = u := by
  simp [takeException]

theorem checkedTransfer_undefined_iff :
    checkedTransfer t s = .fault (.undefinedInstruction u) ↔ s = u ∧ fpAccess s = some .undefined := by
  unfold checkedTransfer
  cases ha : fpAccess s with
  | none => simp
  | some answer =>
    cases answer with
    | undefined => simp [takeUndefined_eq_iff]
    | hypTrap => simp [takeException]
    | enabled => simp [transfer_ne_undefined]

/-- Settles O39: the word reaches the access check, which is made before any address is looked at. -/
theorem hypTrapLeavesTheState : Obligations.HypTrapLeavesTheState := by
  intro i t s hx hc hl ha
  rw [exec_eq_checkedTransfer hx hc hl]
  exact checkedTransfer_hypTrap ha

/-- Settles O40: the word reaches the access check, which is made before any address is looked at. -/
theorem disabledAccessIsUndefined : Obligations.DisabledAccessIsUndefined := by
  intro i t s hx hc hl ha
  rw [exec_eq_checkedTransfer hx hc hl]
  exact checkedTransfer_undefined_iff.mpr ⟨rfl, ha⟩

/-! ### Where Undefined Instruction comes from (R120) -/

theorem unknownRangeCase_ne_undefined : unknownRangeCase t s ≠ .fault (.undefinedInstruction u) := by
  obtain ⟨kind, addr, h⟩ | h := unknownRangeCase_cases t s <;> simp [h]

theorem afterChoice_eq_fault_iff {r : Result} {f : Fault} : afterChoice r = .fault f ↔ r = .fault f := by
  cases r <;> simp [afterChoice]

/-- An empty list is UNDEFINED by the setting of CU_REGS0, or under no_regs by the access check (R104). -/
theorem noRegsCase_undefined (h : noRegsCase t s = .fault (.undefinedInstruction u)) :
    s = u ∧ (fpAccess s = some .undefined ∨ s.params.cuRegs0 = .undefined ∨ s.params.cuRegs0 = .anyListed) := by
  unfold noRegsCase at h
  cases hset : s.params.cuRegs0 <;> simp only [hset] at h
  case undefined => exact ⟨takeUndefined_eq_iff.mp h, .inr (.inl rfl)⟩
  case nop => cases h
  case noRegs => exact (checkedTransfer_undefined_iff.mp h).imp_right .inl
  case refuse => cases h
  case anyListed =>
    refine ⟨?_, .inr (.inr rfl)⟩
    split_ifs at h
    · exact takeUndefined_eq_iff.mp h
    · exact (checkedTransfer_undefined_iff.mp (afterChoice_eq_fault_iff.mp h)).1

/-- A list that is too long is UNDEFINED by the setting of CU_RANGE alone (R105). -/
theorem rangeCase_undefined (h : rangeCase t s = .fault (.undefinedInstruction u)) :
    s = u ∧ (s.params.cuRange = .undefined ∨ s.params.cuRange = .anyListed) := by
  unfold rangeCase at h
  cases hset : s.params.cuRange <;> simp only [hset] at h
  case undefined => exact ⟨takeUndefined_eq_iff.mp h, .inl rfl⟩
  case nop => cases h
  case unknownRegs => exact absurd h unknownRangeCase_ne_undefined
  case refuse => cases h
  case anyListed =>
    refine ⟨?_, .inr rfl⟩
    split_ifs at h
    · exact takeUndefined_eq_iff.mp h
    · exact absurd h unknownRangeCase_ne_undefined

/-- The list is empty or too long under a setting that admits the UNDEFINED behaviour (R104, R105). -/
def UndefinedBySetting (t : Transfer) (s : State) : Prop :=
  (t.regs = 0 ∧ (s.params.cuRegs0 = .undefined ∨ s.params.cuRegs0 = .anyListed)) ∨
    (((t.single = false ∧ 16 < t.regs) ∨ 32 < t.d + t.regs) ∧
      (s.params.cuRange = .undefined ∨ s.params.cuRange = .anyListed))

theorem unpredictableChecks_undefined (h : unpredictableChecks t s = .fault (.undefinedInstruction u)) :
    s = u ∧ (fpAccess s = some .undefined ∨ UndefinedBySetting t s) := by
  unfold unpredictableChecks at h
  split_ifs at h with hpc hodd h0 hrange
  · exact (noRegsCase_undefined h).imp_right (Or.imp_right fun hset => .inl ⟨h0, hset⟩)
  · exact (rangeCase_undefined h).imp_right fun hset => .inr (.inr ⟨rangeUnpredictable_iff.mp hrange, hset⟩)
  · exact (checkedTransfer_undefined_iff.mp h).imp_right .inl

/-- A fault comes from the body, so the condition has passed (R91). -/
theorem conditional_eq_fault {c : BitVec 4} {body : Result} {f : Fault} (h : conditional c s body = .fault f) :
    conditionPasses c s = true ∧ body = .fault f := by
  obtain ⟨hc, e⟩ | ⟨-, e⟩ | e | e := conditional_cases c s body <;> rw [e] at h
  · exact ⟨hc, h⟩
  all_goals cases h

/-- Settles O41: a redirected word is refused; an UNDEFINED word is the first cause; a transfer has passed its condition, and
its checks leave the other two. -/
theorem undefinedInstructionCauses : Obligations.UndefinedInstructionCauses := by
  intro i s s' h
  cases hr : isRedirected i s with
  | true =>
    obtain ⟨r, hrefused⟩ := exec_of_redirected hr
    rw [hrefused] at h
    cases h
  | false =>
    obtain ⟨t, ht⟩ | hword := transfer_or_undefined hr
    · rw [exec_of_executes ⟨ht, hr⟩] at h
      obtain ⟨hc, hbody⟩ := conditional_eq_fault h
      obtain ⟨hs, hcause⟩ := unpredictableChecks_undefined hbody
      exact ⟨hs.symm, fieldCond_encode ht ▸ hc, .inr (hcause.imp_right fun hset => ⟨t, ht, hset⟩)⟩
    · rw [exec_of_undefinedWord s hword] at h
      obtain ⟨hc, hbody⟩ := conditional_eq_fault h
      exact ⟨(takeUndefined_eq_iff.mp hbody).symm, hc, .inl hword⟩

end Sys2Proof.Machine
end
